-- ==== Sys2Proof/Word.lean ====
section
/-!
DEFINITION. The words the block exchanges with its environment (30_encoding.md R60) and the byte of its buffer.
Every quantity of the block is unsigned (00_scope.md R10).
-/

namespace Sys2Proof

/-- `u8`: a colour channel, a brightness level, a byte of the pixel buffer. -/
abbrev Byte := BitVec 8

/-- The 64-bit command word (R61). -/
abbrev CmdWord := BitVec 64

/-- The 32-bit response word (R66). -/
abbrev RspWord := BitVec 32

/-- The 32-bit symbol word (R68). -/
abbrev SymWord := BitVec 32

/-- The 16-bit unsigned index, count and space fields (R6, R61). -/
abbrev Half := BitVec 16

end Sys2Proof
end

