-- ==== Sys2Proof/Config.lean ====
section
/-!
DEFINITION. The implementation parameters of 00_scope.md R6, fixed for the life of an instance, and the quantities
R6 derives from them. The spec leaves no value undefined, so there is no free constant here: a parameter is open
because every statement of the model holds for every well-formed parameter set (assumption log 1).
-/

namespace Sys2Proof

/-- Which of the two `fill` behaviours the instance has (R6, R105, R106). -/
inductive FillMode where
  | single
  | range
deriving DecidableEq, Repr

/-- The parameter set (R6). `resHz` is RES_HZ itself, so that a rate that is no multiple of 10 MHz can be refused. -/
structure Config where
  numLeds : Nat
  brightnessCfg : Byte
  resHz : Nat
  fillMode : FillMode
deriving DecidableEq, Repr

/-- `LEN = 3 × NUM_LEDS`, the byte length of the pixel buffer (R6). -/
def Config.len (c : Config) : Nat := 3 * c.numLeds

/-- `K = RES_HZ / 10 000 000`, ticks per 0.1 µs (R6). -/
def Config.k (c : Config) : Nat := c.resHz / 10000000

/-- `FRAME_SYMS = 8 × LEN + 1`, symbols in one complete frame (R6). -/
def Config.frameSyms (c : Config) : Nat := 8 * c.len + 1

/-- The reset value of BRT: a configured 0 means full brightness (10_state.md R23, R33). -/
def Config.brtReset (c : Config) : Byte := if c.brightnessCfg = 0 then 255 else c.brightnessCfg

/-- The parameter set of `State.reset`. RES_HZ and FILL_MODE are the spec's defaults (R6).
DESIGN CHOICE (assumption log 2, unsafe): NUM_LEDS = 60 and BRIGHTNESS_CFG = 0, which R6 leaves OPEN. -/
def Config.atReset : Config := { numLeds := 60, brightnessCfg := 0, resHz := 10000000, fillMode := .single }

end Sys2Proof
end

