-- ==== Sys2Proof/Syntax.lean ====
section
/-!
DEFINITION. The command set LSCMD version 1 (00_scope.md R1, 30_encoding.md R64): one constructor per row of the
opcode map, its operands at their field widths (R61, R62); the two command ports (R63); the assembler's lines (R76, R77).
-/

namespace Sys2Proof

/-- The two ports that take command words (R63). -/
inductive Port where
  | host
  | pipeline
deriving DecidableEq, Repr

/-- A colour in the caller's logical order red, green, blue (R12). -/
structure Colour where
  r : Byte
  g : Byte
  b : Byte
deriving DecidableEq, Repr

/-- The seven commands (R64). -/
inductive Instr where
  | nop
  | set (idx : Half) (r g b : Byte)
  | fill (idx cnt : Half) (r g b : Byte)
  | setbrt (lvl : Byte)
  | flush
  | encode (space : Half)
  | encrst
deriving DecidableEq, Repr

/-- The port a command belongs to (R63). -/
def Instr.port : Instr → Port
  | .nop => .host
  | .set _ _ _ _ => .host
  | .fill _ _ _ _ _ => .host
  | .setbrt _ => .host
  | .flush => .host
  | .encode _ => .pipeline
  | .encrst => .pipeline

/-- A line of assembler source with its operands as numbers: the seven commands (R76) and the three
pseudo-instructions (R77); a `#rrggbb` literal is one number below 2^24. -/
inductive AsmLine where
  | nop
  | set (idx r g b : Nat)
  | fill (idx cnt r g b : Nat)
  | setbrt (lvl : Nat)
  | flush
  | encode (space : Nat)
  | encrst
  | setc (idx rgb : Nat)
  | fillc (idx cnt rgb : Nat)
  | flushw (space : Nat)
deriving DecidableEq, Repr

end Sys2Proof
end

