-- ==== Sys2Proof/Machine/State.lean ====
section
/-!
DEFINITION. The machine's state as plain data (10_state.md R20: "exactly the six elements"), with the parameters and free
inputs of the step relation (00_scope.md R9) and the output history that R9 asks a model to record; the reasons a step
can stop; the state after reset (R33).
-/

namespace Sys2Proof.Machine

/-- PHASE, the encoder session's phase (R24). -/
inductive Phase where
  | data
  | reset
deriving DecidableEq, Repr

/-- The three things that take steps (00_scope.md R8). -/
inductive Agent where
  | host
  | pipeline
  | reset
deriving DecidableEq, Repr

/-- What leaves the block: a symbol word on the symbol port, a response word on a port (R11, R75). -/
inductive Event where
  | symbol (w : SymWord)
  | response (p : Port) (w : RspWord)
deriving DecidableEq, Repr

/-- The pixel buffer: (offset, byte) pairs, offsets strictly rising, no pair whose byte is 0, which is what an unlisted
offset reads as: "allocates the Pixel Buffer (all zero)" (R33). -/
abbrev Memory := List Host.Cell

/-- The state. `pix` to `busy` are the block's (R20); `cfg` holds the parameters (R6), which no step changes; `hostPort`
and `pipePort` are what the two agents put on their ports, oldest first, `none` being a moment at which nothing is
presented; `sched` says which agent moves next, and after it; `out` is the output history, oldest first. -/
structure State where
  cfg : Config
  pix : Memory
  brt : Byte
  phase : Phase
  byteIdx : BitVec 18
  bitIdx : BitVec 3
  busy : Bool
  hostPort : List (Option CmdWord)
  pipePort : List (Option CmdWord)
  sched : List Agent
  out : List Event
deriving DecidableEq, Repr

/-- Why the machine stops with a fault. -/
inductive Fault where
  /-- Raised by `memRead`, `memWrite` and `bpeEncode` for an offset at or beyond LEN, which does not exist
  (20_memory.md R42, R45). Safe: the block never generates one from a state that meets the invariants of R28. -/
  | noSuchOffset (a : Nat)
deriving DecidableEq, Repr

/-- Why the machine refuses a step. -/
inductive Refusal where
  /-- Raised by an arm of `exec` that has no meaning yet, under its mnemonic. Safe. No arm raises it now. -/
  | notModelled (mnemonic : String)
  /-- Raised by `step` when the parameter set is not well formed: "the instance does not exist" (00_scope.md R7,
  60_exceptions.md R171). Safe. -/
  | illFormedParameters
deriving DecidableEq, Repr

/-- The state after reset for a parameter set (R33, 70_reset_and_hazards.md R190), with nothing presented, no agent due
and no output yet. -/
def State.resetOf (c : Config) : State :=
  { cfg := c, pix := [], brt := c.brtReset, phase := .data, byteIdx := 0, bitIdx := 0, busy := false,
    hostPort := [], pipePort := [], sched := [], out := [] }

/-- The state after reset for the parameter set `Config.atReset` (assumption log 2). -/
def State.reset : State := State.resetOf Config.atReset

end Sys2Proof.Machine
end

