-- ==== Sys2Proof/Machine/Flags.lean ====
section
/-!
DEFINITION. The flags a command answers with, and the response word that carries them (30_encoding.md R66). None of them
is stored: the block's one stored flag is BUSY (10_state.md R30).
-/

namespace Sys2Proof.Machine

/-- The fields of a response word (R66). -/
structure Response where
  err : Bool
  complete : Bool
  full : Bool
  nsym : Half
deriving DecidableEq, Repr

/-- Bits 31:19 zero, ERR 18, COMPLETE 17, FULL 16, NSYM 15:0 (R66). -/
def Response.pack (r : Response) : RspWord :=
  (0 : BitVec 13) ++ BitVec.ofBool r.err ++ BitVec.ofBool r.complete ++ BitVec.ofBool r.full ++ r.nsym

/-- The fields read back from a response word (R66). -/
def Response.unpack (w : RspWord) : Response :=
  { err := w.getLsbD 18, complete := w.getLsbD 17, full := w.getLsbD 16, nsym := w.extractLsb' 0 16 }

/-- Success of every command but a busy ENCODE, and the idle ENCODE: 0x0000_0000 (R66, R125). -/
def rspOk : Response := { err := false, complete := false, full := false, nsym := 0 }

/-- The ILLEGAL answer: 0x0004_0000 (R67, 60_exceptions.md R172). -/
def rspIllegal : Response := { err := true, complete := false, full := false, nsym := 0 }

/-- ENCODE that yields after `n` symbols: FULL (R126, R127). -/
def rspFull (n : Nat) : Response := { err := false, complete := false, full := true, nsym := BitVec.ofNat 16 n }

/-- ENCODE that ends the session after `n` symbols: COMPLETE (R126, R127). -/
def rspComplete (n : Nat) : Response := { err := false, complete := true, full := false, nsym := BitVec.ofNat 16 n }

end Sys2Proof.Machine
end

