-- ==== Sys2Proof/Machine/Symbols.lean ====
section
/-!
DEFINITION. Symbols: their packing (30_encoding.md R68), the tick constants (R69), the three symbols the block emits
(R70, R71), their reading as a waveform (R72), their decoding by pulse width (R73), and the frame function
(42_protocol_encoder.md R130).
-/

namespace Sys2Proof.Machine

/-- A symbol: two (level, duration) parts, part 0 played first (00_scope.md R13). -/
structure Symbol where
  level0 : Bool
  dur0 : BitVec 15
  level1 : Bool
  dur1 : BitVec 15
deriving DecidableEq, Repr

/-- `level1 ++ dur1 ++ level0 ++ dur0` (R68). -/
def Symbol.pack (s : Symbol) : SymWord := BitVec.ofBool s.level1 ++ s.dur1 ++ BitVec.ofBool s.level0 ++ s.dur0

/-- The fields read back from a symbol word (R68). -/
def Symbol.unpack (w : SymWord) : Symbol :=
  { level0 := w.getLsbD 15, dur0 := w.extractLsb' 0 15, level1 := w.getLsbD 31, dur1 := w.extractLsb' 16 15 }

/-! ### Tick constants (R69) -/

def t0h (k : Nat) : Nat := 3 * k
def t0l (k : Nat) : Nat := 9 * k
def t1h (k : Nat) : Nat := 9 * k
def t1l (k : Nat) : Nat := 3 * k
def trstHalf (k : Nat) : Nat := 250 * k

/-- BIT0_SYM (R70). -/
def bit0Sym (k : Nat) : Symbol :=
  { level0 := true, dur0 := BitVec.ofNat 15 (t0h k), level1 := false, dur1 := BitVec.ofNat 15 (t0l k) }

/-- BIT1_SYM (R70). -/
def bit1Sym (k : Nat) : Symbol :=
  { level0 := true, dur0 := BitVec.ofNat 15 (t1h k), level1 := false, dur1 := BitVec.ofNat 15 (t1l k) }

/-- RESET_SYM, the latch time in two equal halves (R71). -/
def resetSym (k : Nat) : Symbol :=
  { level0 := false, dur0 := BitVec.ofNat 15 (trstHalf k), level1 := false, dur1 := BitVec.ofNat 15 (trstHalf k) }

/-- `data_sym(v)` (R70). -/
def dataSym (k : Nat) (v : Bool) : Symbol := if v then bit1Sym k else bit0Sym k

/-! ### Reading symbols (R72, R73) -/

/-- A symbol as a waveform: the line's level and for how many ticks, in playing order (R72). -/
def Symbol.wave (s : Symbol) : List (Bool × Nat) := [(s.level0, s.dur0.toNat), (s.level1, s.dur1.toNat)]

/-- The waveform of a sequence of symbol words: their waveforms with no gap (R72). -/
def waveOf (ws : List SymWord) : List (Bool × Nat) := ws.flatMap (fun w => (Symbol.unpack w).wave)

/-- How long a waveform lasts, in ticks (R72). -/
def ticksOf (wave : List (Bool × Nat)) : Nat := (wave.map Prod.snd).sum

/-- What a symbol word carries (R73). -/
inductive SymMeaning where
  | bit (v : Bool)
  | latch (lowTicks : Nat)
deriving DecidableEq, Repr

/-- Decoding by pulse width, threshold `6 × K`; none for a word R73 gives no reading (R73). -/
def readSym (k : Nat) (w : SymWord) : Option SymMeaning :=
  match (Symbol.unpack w).level0, (Symbol.unpack w).level1 with
  | true, _ => some (.bit (decide (6 * k ≤ (Symbol.unpack w).dur0.toNat)))
  | false, false => some (.latch ((Symbol.unpack w).dur0.toNat + (Symbol.unpack w).dur1.toNat))
  | false, true => none

/-! ### The frame function (R130) -/

/-- The eight bits of a byte in transmission order, bit 7 first (20_memory.md R44). -/
def byteBits (v : Byte) : List Bool := (List.range 8).map (fun t => v.getLsbD (7 - t))

/-- The eight symbols of a byte (R130). -/
def byteSyms (k : Nat) (v : Byte) : List SymWord := (byteBits v).map (fun b => (dataSym k b).pack)

/-- The frame of a buffer content: its bytes' symbols, then RESET_SYM (R130). -/
def frame (k : Nat) (bytes : List Byte) : List SymWord := bytes.flatMap (byteSyms k) ++ [(resetSym k).pack]

end Sys2Proof.Machine
end

