-- ==== Sys2Proof/Machine/Ops.lean ====
section
/-!
DEFINITION. The named operations every meaning is written with: the pixel buffer's read and write (00_scope.md R11), the
registers' writes, `emit` and `respond`, the session position, and the reset of the block (70_reset_and_hazards.md
R190). The block takes no exception (60_exceptions.md R170); what stands in that place is the ERR answer of
Machine/Ports.lean.
-/

namespace Sys2Proof.Machine

/-- Go on from a next state (or a result that holds one); a fault or a refusal ends the command. -/
def andThen {α β : Type} (o : Host.Outcome α Fault Refusal) (f : α → Host.Outcome β Fault Refusal) :
    Host.Outcome β Fault Refusal :=
  match o with
  | .next a => f a
  | .fault r => .fault r
  | .refused r => .refused r

/-! ### The pixel buffer as a list of cells -/

/-- The canonical form: offsets strictly rising, no cell whose byte is 0. -/
abbrev Memory.wf (m : Memory) : Prop := m.Pairwise (fun c d => c.1 < d.1) ∧ ∀ c ∈ m, c.2 ≠ 0

/-- What an offset reads as: its cell's byte, and 0 where no cell lists it (10_state.md R33). -/
def Memory.get : Memory → Nat → Byte
  | [], _ => 0
  | c :: m, a => if c.1 = a then c.2 else Memory.get m a

/-- A cell for a byte, none for the byte an unlisted offset reads as. -/
def Memory.cell (a : Nat) (v : Byte) : Memory := if v = 0 then [] else [(a, v)]

/-- One byte written, the canonical form kept. -/
def Memory.put : Memory → Nat → Byte → Memory
  | [], a, v => Memory.cell a v
  | c :: m, a, v =>
    if a < c.1 then Memory.cell a v ++ c :: m
    else if a = c.1 then Memory.cell a v ++ m
    else c :: Memory.put m a v

/-- The buffer's content as its `LEN` bytes in offset order (R22, R44). -/
def State.bytes (s : State) : List Byte := (List.range s.cfg.len).map (Memory.get s.pix)

/-! ### Writes of one state element each (R11) -/

def State.setPix (s : State) (m : Memory) : State := { s with pix := m }
def State.setBrt (s : State) (v : Byte) : State := { s with brt := v }
def State.setPlace (s : State) (byteIdx : BitVec 18) (bitIdx : BitVec 3) : State :=
  { s with byteIdx := byteIdx, bitIdx := bitIdx }
def State.setPhase (s : State) (p : Phase) : State := { s with phase := p }
def State.setBusy (s : State) (b : Bool) : State := { s with busy := b }

/-- `emit(s)`: append the symbol word to the symbol stream (R11). -/
def State.emit (s : State) (sym : Symbol) : State := { s with out := s.out ++ [.symbol sym.pack] }

/-- `respond(…)`: answer on the port the command came from (R11, R66). -/
def State.respond (s : State) (p : Port) (r : Response) : State := { s with out := s.out ++ [.response p r.pack] }

/-! ### Accesses to the buffer -/

/-- `MemRead(addr, 1)` (R11); an offset at or beyond LEN does not exist (R42, R45). -/
def memRead (s : State) (a : Nat) : Host.Outcome Byte Fault Refusal :=
  if a < s.cfg.len then .next (Memory.get s.pix a) else .fault (.noSuchOffset a)

/-- `MemWrite(addr, 1, v)` (R11); an offset at or beyond LEN does not exist (R42, R45). -/
def memWrite (s : State) (a : Nat) (v : Byte) : Host.Outcome State Fault Refusal :=
  if a < s.cfg.len then .next (s.setPix (Memory.put s.pix a v)) else .fault (.noSuchOffset a)

/-! ### The session -/

/-- `POS = 8 × BYTE_IDX + BIT_IDX` (R26). -/
def State.pos (s : State) : Nat := 8 * s.byteIdx.toNat + s.bitIdx.toNat

/-- BPE `reset()` (42_protocol_encoder.md R123). -/
def bpeReset (s : State) : State := s.setPlace 0 0

/-- FPE `reset()`: there is no state to clear (R124). -/
def fpeReset (s : State) : State := s

/-- Both sub-encoders re-initialised and the session in its initial phase (R128, 43_driver_control.md R152). -/
def restartSession (s : State) : State := (fpeReset (bpeReset s)).setPhase .data

/-! ### The output history -/

/-- The symbol words emitted so far, in order (00_scope.md R9, R11). -/
def symbolsOf (out : List Event) : List SymWord :=
  out.filterMap (fun e => match e with | .symbol w => some w | .response _ _ => none)

/-- The response words given on a port so far, in order (R75). -/
def responsesOf (p : Port) (out : List Event) : List RspWord :=
  out.filterMap (fun e => match e with | .symbol _ => none | .response q w => if q = p then some w else none)

/-- What stands on `h_rsp` or `p_rsp`: the response to the last accepted command of that port, once there is one
(30_encoding.md R75). -/
def State.rsp (s : State) (p : Port) : Option RspWord := (responsesOf p s.out).getLast?

end Sys2Proof.Machine
end

