-- ==== Sys2Proof/Machine/Control.lean ====
section
/-!
DEFINITION. The control commands NOP, SETBRT and FLUSH (43_driver_control.md).
-/

namespace Sys2Proof.Machine

/-- NOP (R150). -/
def execNop (s : State) : Host.Outcome State Fault Refusal := .next (s.respond .host rspOk)

/-- SETBRT: the level stored as given, 0 included (R151). -/
def execSetbrt (lvl : Byte) (s : State) : Host.Outcome State Fault Refusal :=
  .next ((s.setBrt lvl).respond .host rspOk)

/-- FLUSH: the session at its start, the buffer submitted, the host port closed (R152). -/
def execFlush (s : State) : Host.Outcome State Fault Refusal :=
  .next (((restartSession s).setBusy true).respond .host rspOk)

end Sys2Proof.Machine
end

