-- ==== Sys2Proof/Machine/Encoder.lean ====
section
/-!
DEFINITION. The protocol encoder: the two sub-encoders and the commands ENCODE and ENCRST (42_protocol_encoder.md).
-/

namespace Sys2Proof.Machine

/-- A sub-encoder's status, exactly one of the two (R121). -/
inductive SubStatus where
  | full
  | complete
deriving DecidableEq, Repr

/-- What a sub-encoder's `encode` returns, with the state it leaves (R121). -/
structure SubResult where
  state : State
  count : Nat
  status : SubStatus
deriving DecidableEq, Repr

/-- The BPE's loop: `n` data symbols from session position `q` on, bit 7 of a byte first (R122). -/
def emitBits : Nat → Nat → State → Host.Outcome State Fault Refusal
  | 0, _, s => .next s
  | n + 1, q, s =>
    andThen (memRead s (q / 8)) fun v => emitBits n (q + 1) (s.emit (dataSym s.cfg.k (v.getLsbD (7 - q % 8))))

/-- BPE `encode` (R122). A position outside the buffer, which R28 excludes, faults at the byte to be read next. -/
def bpeEncode (space : Nat) (s : State) : Host.Outcome SubResult Fault Refusal :=
  if s.pos < 8 * s.cfg.len then
    andThen (emitBits (min space (8 * s.cfg.len - s.pos)) s.pos s) fun t =>
      if space < 8 * s.cfg.len - s.pos then
        .next
          { state := t.setPlace (BitVec.ofNat 18 ((s.pos + space) / 8)) (BitVec.ofNat 3 ((s.pos + space) % 8)),
            count := space, status := .full }
      else .next { state := t.setPlace 0 0, count := 8 * s.cfg.len - s.pos, status := .complete }
  else .fault (.noSuchOffset s.byteIdx.toNat)

/-- FPE `encode`: RESET_SYM if there is a slot (R124). -/
def fpeEncode (space : Nat) (s : State) : SubResult :=
  if 1 ≤ space then { state := s.emit (resetSym s.cfg.k), count := 1, status := .complete }
  else { state := s, count := 0, status := .full }

/-- The second half of ENCODE, in phase Reset with `n` symbols emitted so far in this call (R126). -/
def encodeReset (space n : Nat) (s : State) : State :=
  let e := fpeEncode (space - n) s
  match e.status with
  | .full => e.state.respond .pipeline (rspFull (n + e.count))
  | .complete => ((e.state.setPhase .data).setBusy false).respond .pipeline (rspComplete (n + e.count))

/-- The first half of ENCODE, in phase Data: yield, or go on to Reset in the same invocation (R126). -/
def encodeData (space : Nat) (s : State) : Host.Outcome State Fault Refusal :=
  andThen (bpeEncode space s) fun e =>
    match e.status with
    | .full => .next (e.state.respond .pipeline (rspFull e.count))
    | .complete => .next (encodeReset space e.count (e.state.setPhase .reset))

/-- ENCODE (R125, R126). -/
def execEncode (space : Half) (s : State) : Host.Outcome State Fault Refusal :=
  if s.busy then
    match s.phase with
    | .data => encodeData space.toNat s
    | .reset => .next (encodeReset space.toNat 0 s)
  else .next (s.respond .pipeline rspOk)

/-- ENCRST (R128). -/
def execEncrst (s : State) : Host.Outcome State Fault Refusal :=
  .next (((restartSession s).setBusy false).respond .pipeline rspOk)

end Sys2Proof.Machine
end

