-- ==== Sys2Proof/Machine/Operands.lean ====
section
/-!
DEFINITION. The operand forms: how SET and FILL turn their index and count into LED numbers and byte offsets
(20_memory.md R41, 41_pixel_buffer.md R101, R104 to R106). All arithmetic is on unbounded naturals (00_scope.md R10).
-/

namespace Sys2Proof.Machine

/-- `clamp_idx(index) = min(index, NUM_LEDS − 1)` (R101). -/
def clampIdx (c : Config) (index : Half) : Nat := min index.toNat (c.numLeds - 1)

/-- `e = min(i + count, NUM_LEDS)` from the already clamped index (R104, decision D14). -/
def fillEnd (c : Config) (index count : Half) : Nat := min (clampIdx c index + count.toNat) c.numLeds

/-- How often FILL's loop runs: `e − i` (R104). -/
def fillCount (c : Config) (index count : Half) : Nat := fillEnd c index count - clampIdx c index

/-- The LEDs FILL's loop writes, in order: `i` at every iteration (R105), or the loop variable (R106). -/
def fillTargets (c : Config) (index count : Half) : List Nat :=
  match c.fillMode with
  | .single => List.replicate (fillCount c index count) (clampIdx c index)
  | .range => List.range' (clampIdx c index) (fillCount c index count)

/-- The offset of an LED's first byte, its green (R41, R43). -/
def ledOffset (led : Nat) : Nat := 3 * led

end Sys2Proof.Machine
end

