-- ==== Sys2Proof/Machine/Scaler.lean ====
section
/-!
DEFINITION. The brightness scaler (40_brightness_scaler.md R90 to R96): a pure function, used by every pixel write and by
nothing else.
-/

namespace Sys2Proof.Machine

/-- `p[15:8]` of the exact 8 × 8 → 16 bit product (R90, R91). -/
def scaledProduct (channel brightness : Byte) : Byte :=
  (channel.setWidth 16 * brightness.setWidth 16).extractLsb' 8 8

/-- `scale(channel, brightness)` (R90); the formula governs (90_conflicts.md C1). -/
def scale (channel brightness : Byte) : Byte :=
  if channel ≠ 0 ∧ brightness ≠ 0 then scaledProduct channel brightness + 1 else scaledProduct channel brightness

end Sys2Proof.Machine
end

