-- ==== Sys2Proof/Machine/PixelBuffer.lean ====
section
/-!
DEFINITION. The pixel buffer commands SET and FILL (41_pixel_buffer.md).
-/

namespace Sys2Proof.Machine

/-- `WritePixel(i, (r, g, b))`: green, then red, then blue, each scaled by BRT (R102). -/
def writePixel (led : Nat) (c : Colour) (s : State) : Host.Outcome State Fault Refusal :=
  andThen (memWrite s (ledOffset led) (scale c.g s.brt)) fun s1 =>
  andThen (memWrite s1 (ledOffset led + 1) (scale c.r s.brt)) fun s2 =>
  memWrite s2 (ledOffset led + 2) (scale c.b s.brt)

/-- The loop of FILL: one pixel write for each LED of the list, in order (R105, R106). -/
def writePixels : List Nat → Colour → State → Host.Outcome State Fault Refusal
  | [], _, s => .next s
  | led :: leds, c, s => andThen (writePixel led c s) (writePixels leds c)

/-- SET (R103). -/
def execSet (idx : Half) (r g b : Byte) (s : State) : Host.Outcome State Fault Refusal :=
  andThen (writePixel (clampIdx s.cfg idx) { r := r, g := g, b := b } s) fun t => .next (t.respond .host rspOk)

/-- FILL in the instance's mode (R104 to R106). -/
def execFill (idx cnt : Half) (r g b : Byte) (s : State) : Host.Outcome State Fault Refusal :=
  andThen (writePixels (fillTargets s.cfg idx cnt) { r := r, g := g, b := b } s) fun t =>
    .next (t.respond .host rspOk)

end Sys2Proof.Machine
end

