-- ==== Sys2Proof/Machine/Dispatch.lean ====
section
/-!
DEFINITION. The meaning of an accepted command: one arm per command of the opcode map (30_encoding.md R64). Acceptance
comes before decoding (R67) and stands in Machine/Step.lean.
-/

namespace Sys2Proof.Machine

def exec (i : Instr) (s : State) : Host.Outcome State Fault Refusal :=
  match i with
  | .nop => Sys2Proof.Machine.execNop s
  | .set idx r g b => Sys2Proof.Machine.execSet idx r g b s
  | .fill idx cnt r g b => Sys2Proof.Machine.execFill idx cnt r g b s
  | .setbrt lvl => Sys2Proof.Machine.execSetbrt lvl s
  | .flush => Sys2Proof.Machine.execFlush s
  | .encode space => Sys2Proof.Machine.execEncode space s
  | .encrst => Sys2Proof.Machine.execEncrst s

end Sys2Proof.Machine
end

