-- ==== Sys2Proof/Decode.lean ====
section
/-!
DEFINITION. The decoder of command words, total on every 64-bit value and rejecting by name (30_encoding.md R61 to R67),
and after it the encoder (R76). A word is presented on a port, and its port takes part in decoding (R65).
-/

namespace Sys2Proof

/-! ### The fields of a command word (R61) -/

def cmdOp (w : CmdWord) : BitVec 4 := w.extractLsb' 60 4
def cmdRsv (w : CmdWord) : BitVec 4 := w.extractLsb' 56 4
def cmdIdx (w : CmdWord) : Half := w.extractLsb' 40 16
def cmdCnt (w : CmdWord) : Half := w.extractLsb' 24 16
def cmdR (w : CmdWord) : Byte := w.extractLsb' 16 8
def cmdG (w : CmdWord) : Byte := w.extractLsb' 8 8
def cmdB (w : CmdWord) : Byte := w.extractLsb' 0 8

/-! ### The opcode map (R64) -/

/-- The seven rows of the opcode map. -/
inductive Opcode where
  | nop
  | set
  | fill
  | setbrt
  | flush
  | encode
  | encrst
deriving DecidableEq, Repr

/-- The `OP` column. -/
def Opcode.code : Opcode → BitVec 4
  | .nop => 0x0
  | .set => 0x1
  | .fill => 0x2
  | .setbrt => 0x3
  | .flush => 0x4
  | .encode => 0x8
  | .encrst => 0x9

/-- The `Port` column. -/
def Opcode.port : Opcode → Port
  | .nop => .host
  | .set => .host
  | .fill => .host
  | .setbrt => .host
  | .flush => .host
  | .encode => .pipeline
  | .encrst => .pipeline

/-- Every row, in the map's order. -/
def Opcode.rows : List Opcode := [.nop, .set, .fill, .setbrt, .flush, .encode, .encrst]

/-- The row an `OP` value selects; none for 0x5 to 0x7 and 0xA to 0xF, which are reserved. -/
def opcodeOf (op : BitVec 4) : Option Opcode := Opcode.rows.find? (fun o => o.code = op)

/-- The row's command with the operands of R62; a field the row does not use is dropped (R61). -/
def Opcode.instr (o : Opcode) (w : CmdWord) : Instr :=
  match o with
  | .nop => .nop
  | .set => .set (cmdIdx w) (cmdR w) (cmdG w) (cmdB w)
  | .fill => .fill (cmdIdx w) (cmdCnt w) (cmdR w) (cmdG w) (cmdB w)
  | .setbrt => .setbrt (cmdB w)
  | .flush => .flush
  | .encode => .encode (cmdCnt w)
  | .encrst => .encrst

/-- Why a word is ILLEGAL (R67): (a), (b), and (c) or (d). -/
inductive Illegal where
  | reservedBits
  | reservedOpcode
  | wrongPort
deriving DecidableEq, Repr

/-- R65, the checks in the order of 60_exceptions.md R178 (d): RSV, then OP, then the port. -/
def decode (p : Port) (w : CmdWord) : Except Illegal Instr :=
  if cmdRsv w = 0 then
    match opcodeOf (cmdOp w) with
    | some o => if o.port = p then .ok (o.instr w) else .error .wrongPort
    | none => .error .reservedOpcode
  else .error .reservedBits

/-- The port of the opcode map whose commands have this word's bit 63: `OP[3]` is 0 for every host command and 1 for
every pipeline command (R64). -/
def wordPort (w : CmdWord) : Port := if w.getLsbD 63 then .pipeline else .host

/-- The command of a row of spec/opcode_table.json, read on the port that its bit 63 names; the table numbers a command
word's bits as R61 does, so the word is `w` itself. -/
def decodeTableWord (_nbits w : Nat) : Option Instr :=
  match decode (wordPort (BitVec.ofNat 64 w)) (BitVec.ofNat 64 w) with
  | .ok i => some i
  | .error _ => none

/-! ### The encoder (R76) -/

/-- A command word from its fields, RSV = 0 (R61). -/
def cmdPack (op : BitVec 4) (idx cnt : Half) (r g b : Byte) : CmdWord :=
  op ++ (0 : BitVec 4) ++ idx ++ cnt ++ r ++ g ++ b

/-- The word the assembler writes for a command: 0 in every unused field (R76). -/
def encode : Instr → CmdWord
  | .nop => cmdPack Opcode.nop.code 0 0 0 0 0
  | .set idx r g b => cmdPack Opcode.set.code idx 0 r g b
  | .fill idx cnt r g b => cmdPack Opcode.fill.code idx cnt r g b
  | .setbrt lvl => cmdPack Opcode.setbrt.code 0 0 0 0 lvl
  | .flush => cmdPack Opcode.flush.code 0 0 0 0 0
  | .encode space => cmdPack Opcode.encode.code 0 space 0 0 0
  | .encrst => cmdPack Opcode.encrst.code 0 0 0 0 0

end Sys2Proof
end

