-- ==== Sys2Proof/Machine/Ports.lean ====
section
/-!
DEFINITION. The ports and the signals (30_encoding.md R75): what is presented, when it is accepted and when it is held
(43_driver_control.md R156), the one error answer (60_exceptions.md R172), and the reset input (70_reset_and_hazards.md
R190, R191).
-/

namespace Sys2Proof.Machine

/-- What an agent puts on a port, moment by moment. -/
def State.portInput (s : State) : Port → List (Option CmdWord)
  | .host => s.hostPort
  | .pipeline => s.pipePort

/-- `h_valid` with `h_cmd`, `p_valid` with `p_cmd`: the word presented on a port now (R75). -/
def State.presented (s : State) (p : Port) : Option CmdWord :=
  match s.portInput p with
  | [] => none
  | w :: _ => w

/-- The output `busy = BUSY` (10_state.md R34). -/
def State.busyOut (s : State) : Bool := s.busy

/-- `h_ready = NOT BUSY`; `p_ready` is always 1 (R75, R156). -/
def State.ready (s : State) : Port → Bool
  | .host => !s.busy
  | .pipeline => true

/-- The agent that moved has had its turn. -/
def State.endTurn (s : State) : State := { s with sched := s.sched.tail }

/-- The port goes on to what its agent presents next. -/
def State.advancePort (s : State) : Port → State
  | .host => { s with hostPort := s.hostPort.tail }
  | .pipeline => { s with pipePort := s.pipePort.tail }

/-- The presented word is taken from its port, to be decoded and performed (R48). -/
def State.accept (s : State) (p : Port) : State := (s.advancePort p).endTurn

/-- A turn at which the agent presents nothing. -/
def State.idleTurn (s : State) (p : Port) : State := (s.advancePort p).endTurn

/-- `hold`: the word is not accepted and no state changes; the agent stays at this command (R11, R156). -/
def State.hold (s : State) : State := s.endTurn

/-- The ILLEGAL answer: no state changes, no symbol, ERR = 1 (R67, R172). -/
def answerIllegal (p : Port) (s : State) : State := s.respond p rspIllegal

/-- The reset input: the block takes the state of R33, emits nothing and answers nothing; a command held or presented at
that moment is dropped; symbols already emitted stay emitted (R190, R191). -/
def applyReset (s : State) : State :=
  { State.resetOf s.cfg with
    hostPort := s.hostPort.tail, pipePort := s.pipePort.tail, sched := s.sched.tail, out := s.out }

/-- The agent behind a port. -/
def Port.agent : Port → Agent
  | .host => .host
  | .pipeline => .pipeline

/-- `s` with the word standing on the port now, before what its agent presents later.
DESIGN CHOICE (assumption log 18, unsafe): a word that already stood held on the host port counts as presented later, so
the offered word is accepted before it. -/
def State.offer (s : State) : Port → CmdWord → State
  | .host, w => { s with hostPort := some w :: s.hostPort }
  | .pipeline, w => { s with pipePort := some w :: s.pipePort }

/-- `s` with the agent behind the port due to move. -/
def State.due (s : State) (p : Port) : State := { s with sched := Port.agent p :: s.sched }

/-- `s` with the word presented next on the port, and its agent due to move. -/
def State.present (s : State) (p : Port) (w : CmdWord) : State := (s.offer p w).due p

/-- `s` ready to accept on the port: on the host port a flush in progress is ended as ENCRST ends it, since the port
would hold the word (R156); elsewhere `s` itself (assumption log 5). -/
def State.freed (s : State) (p : Port) : State :=
  if s.ready p then s else (restartSession s).setBusy false

/-- The run is over: every host command accepted, BUSY = 0, none held (70_reset_and_hazards.md R204).
DESIGN CHOICE (assumption log 16, unsafe): a host command that a reset dropped (R190) was never accepted, and R204 does not
say whether it still stands in the way of "every command accepted"; it counts as done here, since it has left the port. -/
def State.runOver (s : State) : Bool := s.hostPort.all Option.isNone && !s.busy

end Sys2Proof.Machine
end

