-- ==== Sys2Proof/WellFormed.lean ====
section
/-!
DEFINITION. What is well formed: a parameter set (00_scope.md R7) and an assembler line (30_encoding.md R76). A command
of `Instr` is well formed by its types: every operand is exactly as wide as its field (R61).
-/

namespace Sys2Proof

/-- R7: every domain of R6 holds. BRIGHTNESS_CFG and FILL_MODE are in their domains by their types. -/
abbrev Config.WellFormed (c : Config) : Prop :=
  1 ≤ c.numLeds ∧ c.numLeds ≤ 65535 ∧ c.resHz % 10000000 = 0 ∧ 1 ≤ c.k ∧ c.k ≤ 131

/-- R76: the assembler refuses an operand outside its field's range. -/
def AsmLine.wellFormed : AsmLine → Bool
  | .nop => true
  | .set idx r g b => decide (idx < 65536) && decide (r < 256) && decide (g < 256) && decide (b < 256)
  | .fill idx cnt r g b =>
    decide (idx < 65536) && decide (cnt < 65536) && decide (r < 256) && decide (g < 256) && decide (b < 256)
  | .setbrt lvl => decide (lvl < 256)
  | .flush => true
  | .encode space => decide (space < 65536)
  | .encrst => true
  | .setc idx rgb => decide (idx < 65536) && decide (rgb < 16777216)
  | .fillc idx cnt rgb => decide (idx < 65536) && decide (cnt < 65536) && decide (rgb < 16777216)
  | .flushw space => decide (space < 65536)

end Sys2Proof
end

