-- ==== Sys2Proof/Machine/Step.lean ====
section
/-!
DEFINITION. One step: one move of one agent (00_scope.md R8, 20_memory.md R48). The agent due next is the head of
`sched`, which nothing constrains, so every order of the agents' moves is a run (60_exceptions.md R178).
-/

namespace Sys2Proof.Machine

/-- The accepted word decoded and performed, or answered ERR (30_encoding.md R65, R67). -/
def perform (p : Port) (w : CmdWord) (s : State) : Host.Outcome State Fault Refusal :=
  match decode p w with
  | .ok i => exec i s
  | .error _ => .next (answerIllegal p s)

/-- A turn of the agent behind a port: acceptance first (R178 d), then decoding. -/
def portTurn (p : Port) (s : State) : Host.Outcome State Fault Refusal :=
  match s.presented p with
  | none => .next (s.idleTurn p)
  | some w => if s.ready p then perform p w (s.accept p) else .next s.hold

/-- One step. An ill-formed parameter set is refused before any step (00_scope.md R7); with no agent due nothing
happens, for the block has no autonomous step (R8). -/
def step (s : State) : Host.Outcome State Fault Refusal :=
  if s.cfg.WellFormed then
    match s.sched with
    | [] => .next s
    | .host :: _ => portTurn .host s
    | .pipeline :: _ => portTurn .pipeline s
    | .reset :: _ => .next (applyReset s)
  else .refused .illFormedParameters

/-- `s` with the command word of an opcode-table row presented on its port, that agent due to move, and the port ready
to accept it (assumption log 5): the very next step performs it. -/
def State.withFetchWord (s : State) (_nbits w : Nat) : State :=
  (s.freed (wordPort (BitVec.ofNat 64 w))).present (wordPort (BitVec.ofNat 64 w)) (BitVec.ofNat 64 w)

end Sys2Proof.Machine
end

