-- ==== Sys2Proof/Machine/Assembler.lean ====
section
/-!
DEFINITION. The assembler (30_encoding.md R76, R77): a line of source text, its command word and its port, or the
procedure FLUSHW; a program as the list of its items; command words put on the ports in the order of their lines.
-/

namespace Sys2Proof.Machine

/-! ### From a line to a command -/

/-- The pseudo-instructions of one word expanded: `#rrggbb` into its three channels (R77). -/
def expandLine : AsmLine → AsmLine
  | .setc idx rgb => .set idx (rgb / 65536) (rgb / 256 % 256) (rgb % 256)
  | .fillc idx cnt rgb => .fill idx cnt (rgb / 65536) (rgb / 256 % 256) (rgb % 256)
  | l => l

/-- The command of a line that is not a pseudo-instruction; FLUSHW is "not a single command word" (R77). -/
def coreInstr : AsmLine → Option Instr
  | .nop => some .nop
  | .set idx r g b => some (.set (BitVec.ofNat 16 idx) (BitVec.ofNat 8 r) (BitVec.ofNat 8 g) (BitVec.ofNat 8 b))
  | .fill idx cnt r g b =>
    some (.fill (BitVec.ofNat 16 idx) (BitVec.ofNat 16 cnt) (BitVec.ofNat 8 r) (BitVec.ofNat 8 g) (BitVec.ofNat 8 b))
  | .setbrt lvl => some (.setbrt (BitVec.ofNat 8 lvl))
  | .flush => some .flush
  | .encode space => some (.encode (BitVec.ofNat 16 space))
  | .encrst => some .encrst
  | .setc _ _ => none
  | .fillc _ _ _ => none
  | .flushw _ => none

/-- The command a line stands for; none for an operand outside its field's range (R76). -/
def lineInstr (l : AsmLine) : Option Instr := if l.wellFormed then coreInstr (expandLine l) else none

/-- The line's port, implied by its mnemonic, and its command word (R76). -/
def assemble (l : AsmLine) : Option (Port × CmdWord) := (lineInstr l).map fun i => (i.port, encode i)

/-- What a line of a program is: one command word on its port, or FLUSHW, "a procedure of two agents" (R77), which
Machine/Procedures.lean performs. -/
inductive ProgramItem where
  | word (p : Port) (w : CmdWord)
  | flushw (space : Half)
deriving DecidableEq, Repr

/-- The item of a line; a prefix overrides the implied port, and FLUSHW, which has no one port, takes none (assumption
log 12); none for an operand outside its field's range. -/
def assembleItem (prefixed : Option Port) : AsmLine → Option ProgramItem
  | .flushw space =>
    match prefixed with
    | none => if space < 65536 then some (.flushw (BitVec.ofNat 16 space)) else none
    | some _ => none
  | l => (assemble l).map fun item => .word (prefixed.getD item.1) item.2

/-! ### Reading a line of text (R76) -/

def isBlank (c : Char) : Bool := c = ' ' || c = '\t' || c = '\r'

def trimFront (cs : List Char) : List Char := cs.dropWhile isBlank

def trim (cs : List Char) : List Char := (trimFront (trimFront cs).reverse).reverse

/-- The value of a hexadecimal digit. -/
def hexDigit (c : Char) : Option Nat :=
  if '0'.toNat ≤ c.toNat ∧ c.toNat ≤ '9'.toNat then some (c.toNat - '0'.toNat)
  else if 'a'.toNat ≤ c.toNat ∧ c.toNat ≤ 'f'.toNat then some (c.toNat - 'a'.toNat + 10)
  else if 'A'.toNat ≤ c.toNat ∧ c.toNat ≤ 'F'.toNat then some (c.toNat - 'A'.toNat + 10)
  else none

/-- Digits of a base, most significant first, after the value read so far. -/
def digitsFrom (base : Nat) : Nat → List Char → Option Nat
  | v, [] => some v
  | v, c :: cs =>
    match hexDigit c with
    | some d => if d < base then digitsFrom base (base * v + d) cs else none
    | none => none

/-- A number of at least one digit. -/
def digits (base : Nat) : List Char → Option Nat
  | [] => none
  | c :: cs => digitsFrom base 0 (c :: cs)

/-- "numbers are decimal, or hexadecimal with `0x`" (R76). -/
def number : List Char → Option Nat
  | '0' :: 'x' :: cs => digits 16 cs
  | cs => digits 10 cs

/-- A colour literal `#rrggbb` (R77). -/
def colourLiteral : List Char → Option Nat
  | '#' :: cs => if cs.length = 6 then digits 16 cs else none
  | _ => none

/-- Text cut at its commas, each piece without the blanks around it. -/
def commaPieces : List Char → List Char → List (List Char)
  | acc, [] => [trim acc.reverse]
  | acc, c :: cs => if c = ',' then trim acc.reverse :: commaPieces [] cs else commaPieces (c :: acc) cs

/-- The operands of a line: none, or pieces separated by commas. -/
def operandPieces (cs : List Char) : List (List Char) := if trim cs = [] then [] else commaPieces [] cs

/-- A line from its mnemonic and its operands (R76, R77). -/
def lineOf (mnemonic : List Char) (ops : List (List Char)) : Option AsmLine :=
  match mnemonic, ops with
  | ['N', 'O', 'P'], [] => some .nop
  | ['S', 'E', 'T'], [i, r, g, b] =>
    match number i, number r, number g, number b with
    | some i, some r, some g, some b => some (.set i r g b)
    | _, _, _, _ => none
  | ['F', 'I', 'L', 'L'], [i, n, r, g, b] =>
    match number i, number n, number r, number g, number b with
    | some i, some n, some r, some g, some b => some (.fill i n r g b)
    | _, _, _, _, _ => none
  | ['S', 'E', 'T', 'B', 'R', 'T'], [l] => (number l).map .setbrt
  | ['F', 'L', 'U', 'S', 'H'], [] => some .flush
  | ['E', 'N', 'C', 'O', 'D', 'E'], [n] => (number n).map .encode
  | ['E', 'N', 'C', 'R', 'S', 'T'], [] => some .encrst
  | ['S', 'E', 'T', 'C'], [i, c] =>
    match number i, colourLiteral c with
    | some i, some c => some (.setc i c)
    | _, _ => none
  | ['F', 'I', 'L', 'L', 'C'], [i, n, c] =>
    match number i, number n, colourLiteral c with
    | some i, some n, some c => some (.fillc i n c)
    | _, _, _ => none
  | ['F', 'L', 'U', 'S', 'H', 'W'], [n] => (number n).map .flushw
  | _, _ => none

/-- A line without its port prefix: the mnemonic up to the first blank, then the operands. -/
def parseBody (cs : List Char) : Option AsmLine :=
  lineOf (cs.takeWhile (fun c => !isBlank c)) (operandPieces (cs.dropWhile (fun c => !isBlank c)))

/-- What a line of source is (R76). -/
inductive SourceLine where
  /-- Nothing but blanks and a comment. -/
  | empty
  /-- A line, with the port its prefix `H:` or `P:` names, if it has one. -/
  | line (port : Option Port) (l : AsmLine)
deriving DecidableEq, Repr

/-- One line of source; `;` starts a comment; none if it is no line of R76 or R77. -/
def parseLine (text : List Char) : Option SourceLine :=
  match trim (text.takeWhile (fun c => c ≠ ';')) with
  | [] => some .empty
  | 'H' :: ':' :: cs => (parseBody (trimFront cs)).map (.line (some .host))
  | 'P' :: ':' :: cs => (parseBody (trimFront cs)).map (.line (some .pipeline))
  | cs => (parseBody cs).map (.line none)

/-! ### A program on the ports -/

/-- The items of a source program, in the order of its lines; none if a line does not assemble. -/
def assembleText : List (List Char) → Option (List ProgramItem)
  | [] => some []
  | t :: ts =>
    match parseLine t, assembleText ts with
    | some .empty, some items => some items
    | some (.line port l), some items => (assembleItem port l).map (fun item => item :: items)
    | _, _ => none

/-- A word added at the end of what its port's agent will present, with a turn for that agent. -/
def State.enqueue (s : State) (item : Port × CmdWord) : State :=
  match item.1 with
  | .host => { s with hostPort := s.hostPort ++ [some item.2], sched := s.sched ++ [.host] }
  | .pipeline => { s with pipePort := s.pipePort ++ [some item.2], sched := s.sched ++ [.pipeline] }

/-- Command words presented in the order of their lines, one turn each (assumption log 5). -/
def State.withProgram (s : State) (items : List (Port × CmdWord)) : State := items.foldl State.enqueue s

end Sys2Proof.Machine
end

