-- ==== Sys2Proof/Machine/Procedures.lean ====
section
/-!
DEFINITION. Procedures of several commands: a Pipeline's sequence of ENCODE commands (42_protocol_encoder.md R131), the
pseudo-instruction FLUSHW, which is the facade's `flush()` (30_encoding.md R77, 43_driver_control.md R153), and a program
of the assembler performed line by line.
-/

namespace Sys2Proof.Machine

/-- One turn of the agent behind a port, with what stands on the port. -/
def turn (p : Port) (s : State) : Host.Outcome State Fault Refusal := step (s.due p)

/-- `ENCODE s1`, `ENCODE s2`, … performed one after the other (R131). -/
def encodeAll : List Half → State → Host.Outcome State Fault Refusal
  | [], s => .next s
  | space :: spaces, s => andThen (exec (.encode space) s) (encodeAll spaces)

/-! ### FLUSHW (R77) -/

/-- The last response on the pipeline port has COMPLETE = 1. -/
def State.completed (s : State) : Bool :=
  match s.rsp .pipeline with
  | some w => (Response.unpack w).complete
  | none => false

/-- `ENCODE space` repeated until a response has COMPLETE = 1, at most so many times (R77). The pipeline port is always
ready (42_protocol_encoder.md R125), so each is performed at once. -/
def encodeUntilComplete : Nat → Half → State → Host.Outcome State Fault Refusal
  | 0, _, s => .next s
  | n + 1, space, s =>
    andThen (exec (.encode space) s) fun t => if t.completed then .next t else encodeUntilComplete n space t

/-- FLUSHW from its FLUSH on the host port onward: the Host's turn, then, if the port was ready and so took it, ENCODE
until complete; a held FLUSH stays on the port, and no ENCODE of the procedure has been issued (43_driver_control.md R152,
R156; assumption log 13). -/
def flushwOffered (limit : Nat) (space : Half) (s : State) : Host.Outcome State Fault Refusal :=
  andThen (turn .host s) fun t => if s.ready .host then encodeUntilComplete limit space t else .next t

/-- `FLUSHW space` with at most so many ENCODE commands: FLUSH presented on the host port, then ENCODE until complete.
DESIGN CHOICE (assumption log 18, unsafe): where another word already stands held on the host port, the FLUSH stands ahead
of it, so it is accepted first when the hold lifts; R77 does not say what FLUSHW does then. -/
def flushw (limit : Nat) (space : Half) (s : State) : Host.Outcome State Fault Refusal :=
  flushwOffered limit space (s.offer .host (encode .flush))

/-! ### A program, line by line (R76, R77; assumption log 17) -/

/-- One item of a program: its word presented with a turn for its agent, or FLUSHW. -/
def runItem (limit : Nat) (item : ProgramItem) (s : State) : Host.Outcome State Fault Refusal :=
  match item with
  | .word p w => turn p (s.offer p w)
  | .flushw space => flushw limit space s

/-- The Host's items in order, as long as the host port is ready; with the state, the items the Host still stays at. -/
def runWaiting (limit : Nat) :
    List ProgramItem → State → Host.Outcome (State × List ProgramItem) Fault Refusal
  | [], s => .next (s, [])
  | item :: items, s =>
    if s.ready .host then andThen (runItem limit item s) (runWaiting limit items) else .next (s, item :: items)

/-- The word that stands on the host port while the Host stays at an item. -/
def ProgramItem.heldWord : ProgramItem → CmdWord
  | .word _ w => w
  | .flushw _ => encode .flush

/-- The items of a program in the order of its lines, with the Host's items that wait: a pipeline word is performed at
its line, an item of the Host when the Host has come to it and the port is ready (43_driver_control.md R156). What still
waits at the end stands on the host port, unperformed. -/
def runItems (limit : Nat) : List ProgramItem → List ProgramItem → State → Host.Outcome State Fault Refusal
  | [], waiting, s => .next { s with hostPort := waiting.map (fun item => some item.heldWord) ++ s.hostPort }
  | .word .pipeline w :: items, waiting, s =>
    andThen (runItem limit (.word .pipeline w) s) fun t =>
      andThen (runWaiting limit waiting t) fun r => runItems limit items r.2 r.1
  | .word .host w :: items, waiting, s =>
    andThen (runWaiting limit (waiting ++ [.word .host w]) s) fun r => runItems limit items r.2 r.1
  | .flushw space :: items, waiting, s =>
    andThen (runWaiting limit (waiting ++ [.flushw space]) s) fun r => runItems limit items r.2 r.1

/-- A source program performed, with at most so many ENCODE commands for each FLUSHW; none if a line does not assemble. -/
def runText (limit : Nat) (text : List (List Char)) (s : State) : Option (Host.Outcome State Fault Refusal) :=
  (assembleText text).map fun items => runItems limit items [] s

end Sys2Proof.Machine
end

