-- ==== Sys2Proof/Safety.lean ====
section
/-!
DEFINITION. The terms claims are made in: the invariants of 10_state.md R28, and what a session still owes the Pipeline
(42_protocol_encoder.md R127, R131).
-/

namespace Sys2Proof.Machine

/-- R28 items 1 to 3: the place is inside the buffer, is 0 in phase Reset, and the idle session is in its initial
state. `BIT_IDX ≤ 7` holds by its width. -/
abbrev State.SessionInv (s : State) : Prop :=
  s.byteIdx.toNat < s.cfg.len ∧
  (s.phase = .reset → s.byteIdx = 0 ∧ s.bitIdx = 0) ∧
  (s.busy = false → s.phase = .data ∧ s.byteIdx = 0 ∧ s.bitIdx = 0)

/-- R28 item 4, for a buffer held as cells: the canonical form, and no offset at or beyond LEN. -/
abbrev State.BufferInv (s : State) : Prop := Memory.wf s.pix ∧ ∀ c ∈ s.pix, c.1 < s.cfg.len

/-- The invariants of a well-formed instance (00_scope.md R7, 10_state.md R28). -/
abbrev State.Inv (s : State) : Prop := s.cfg.WellFormed ∧ s.SessionInv ∧ s.BufferInv

/-- The symbols the session in progress still lacks: `W` of R127 counts them. -/
def State.remaining (s : State) : List SymWord :=
  if s.busy then
    match s.phase with
    | .data => (frame s.cfg.k s.bytes).drop s.pos
    | .reset => [(resetSym s.cfg.k).pack]
  else []

/-- The next step ends the session from outside: a reset, or an ENCRST on the pipeline port
(43_driver_control.md R160 (b), 70_reset_and_hazards.md R191). -/
def State.abortsNext (s : State) : Bool :=
  match s.sched with
  | .reset :: _ => true
  | .pipeline :: _ =>
    match s.presented .pipeline with
    | some w => (match decode .pipeline w with | .ok .encrst => true | _ => false)
    | none => false
  | _ => false

/-- The space the Pipeline offers in the next step: that of an ENCODE presented at its turn, and 0 where none is, since
an ENCODE of space 0 emits nothing either (42_protocol_encoder.md R129, R132). -/
def State.spaceNext (s : State) : Nat :=
  match s.sched with
  | .pipeline :: _ =>
    match s.presented .pipeline with
    | some w => (match decode .pipeline w with | .ok (.encode space) => space.toNat | _ => 0)
    | none => 0
  | _ => 0

end Sys2Proof.Machine
end

