-- ==== Sys2Proof/Certificates/Slice0/Obligations.lean ====
section
/-!
DEFINITION. The statements for the provers, from the numbered rules of the spec. Every statement holds for every
well-formed parameter set, fill mode and tick rate: the parameters are a field of the state that nothing constrains.
-/

open Sys2Proof Sys2Proof.Machine

/-! ### The brightness scaler -/

/-- R90: `scale` is `floor(c·b / 256)`, plus 1 when both inputs are non-zero; the product is at most 65025, the
shifted product at most 254, so nothing wraps (the bounds are R90's comments, spelt out in R91, which the spec derives
from it); the worked example of R90. -/
def Obligations.ScaleIsTheFormula : Prop :=
  (∀ c b : Byte,
    (scale c b).toNat = c.toNat * b.toNat / 256 + (if c ≠ 0 ∧ b ≠ 0 then 1 else 0) ∧
    c.toNat * b.toNat ≤ 65025 ∧ c.toNat * b.toNat / 256 ≤ 254) ∧
  scale 100 50 = 20

/-- R92, R93, R94: zero in, zero out; non-zero in, non-zero out; the top of the range. -/
def Obligations.ScaleIsZeroExactlyAtZero : Prop :=
  (∀ b : Byte, scale 0 b = 0) ∧ (∀ c : Byte, scale c 0 = 0) ∧
  (∀ c b : Byte, 0 < c.toNat → 0 < b.toNat → 1 ≤ (scale c b).toNat) ∧ scale 255 255 = 255

/-- 40_brightness_scaler.md section 2 (R96 items 1 to 5, less the count of item 5; derived there from R90): identity
at full brightness, symmetry, never brighter than either input, monotone, biased upward, above the ceiling exactly at
multiples of 256. -/
def Obligations.ScaleIsIdentityAtFullAndMonotone : Prop :=
  (∀ c : Byte, scale c 255 = c ∧ scale 255 c = c) ∧
  (∀ c b : Byte, scale c b = scale b c ∧ (scale c b).toNat ≤ min c.toNat b.toNat) ∧
  (∀ c d b : Byte, c.toNat ≤ d.toNat →
    (scale c b).toNat ≤ (scale d b).toNat ∧ (scale b c).toNat ≤ (scale b d).toNat) ∧
  (∀ c b : Byte, c ≠ 0 → b ≠ 0 →
    c.toNat * b.toNat < 256 * (scale c b).toNat ∧
    ((c.toNat * b.toNat + 255) / 256 < (scale c b).toNat ↔ c.toNat * b.toNat % 256 = 0))

/-! ### Command words -/

/-- Words written out bit by bit in 95_test_vectors.md section 2.2, one or more for each command and each kind of
ILLEGAL word. -/
def Obligations.SpecWordsDecode : Prop :=
  decode .host 0x0000FFFFFFFFFFFF = .ok .nop ∧
  decode .host 0x1000050000FF0080 = .ok (.set 5 0xFF 0x00 0x80) ∧
  decode .host 0x2000010002102030 = .ok (.fill 1 2 0x10 0x20 0x30) ∧
  decode .host 0x3000FFFFFFFFFF80 = .ok (.setbrt 128) ∧
  decode .host 0x4000123456789ABC = .ok .flush ∧
  decode .pipeline 0x8000ABCD00031234 = .ok (.encode 52480) ∧
  decode .pipeline 0x9000000000000001 = .ok .encrst ∧
  decode .host 0x1100000000123456 = .error .reservedBits ∧
  decode .host 0x5000000000000000 = .error .reservedOpcode ∧
  decode .host 0x800000000A000000 = .error .wrongPort ∧
  decode .pipeline 0x4000000000000000 = .error .wrongPort

/-- R64: a word selects a command iff `(CMD & 0xFF00_0000_0000_0000) = match`, on the row's port; the reserved OP
values select none; bit 63 tells the port. -/
def Obligations.OpcodeMapSelectsByMask : Prop :=
  ∀ (p : Port) (w : CmdWord),
    (decode p w = .ok .nop ↔ w &&& 0xFF00000000000000 = 0x0000000000000000 ∧ p = .host) ∧
    ((∃ idx r g b, decode p w = .ok (.set idx r g b)) ↔
      w &&& 0xFF00000000000000 = 0x1000000000000000 ∧ p = .host) ∧
    ((∃ idx cnt r g b, decode p w = .ok (.fill idx cnt r g b)) ↔
      w &&& 0xFF00000000000000 = 0x2000000000000000 ∧ p = .host) ∧
    ((∃ lvl, decode p w = .ok (.setbrt lvl)) ↔ w &&& 0xFF00000000000000 = 0x3000000000000000 ∧ p = .host) ∧
    (decode p w = .ok .flush ↔ w &&& 0xFF00000000000000 = 0x4000000000000000 ∧ p = .host) ∧
    ((∃ space, decode p w = .ok (.encode space)) ↔
      w &&& 0xFF00000000000000 = 0x8000000000000000 ∧ p = .pipeline) ∧
    (decode p w = .ok .encrst ↔ w &&& 0xFF00000000000000 = 0x9000000000000000 ∧ p = .pipeline) ∧
    (w.toNat / 2 ^ 60 ∈ [5, 6, 7, 10, 11, 12, 13, 14, 15] → ∃ e, decode p w = .error e) ∧
    (∀ i, decode p w = .ok i → (w.getLsbD 63 = true ↔ p = .pipeline))

/-- R62: every operand is the unsigned value of its field: index bits 55:40, count and space bits 39:24, red 23:16,
green 15:8, blue and level 7:0. -/
def Obligations.OperandsAreTheirFields : Prop :=
  ∀ (p : Port) (w : CmdWord),
    (∀ idx r g b, decode p w = .ok (.set idx r g b) →
      idx.toNat = w.toNat / 2 ^ 40 % 2 ^ 16 ∧ r.toNat = w.toNat / 2 ^ 16 % 2 ^ 8 ∧
      g.toNat = w.toNat / 2 ^ 8 % 2 ^ 8 ∧ b.toNat = w.toNat % 2 ^ 8) ∧
    (∀ idx cnt r g b, decode p w = .ok (.fill idx cnt r g b) →
      idx.toNat = w.toNat / 2 ^ 40 % 2 ^ 16 ∧ cnt.toNat = w.toNat / 2 ^ 24 % 2 ^ 16 ∧
      r.toNat = w.toNat / 2 ^ 16 % 2 ^ 8 ∧ g.toNat = w.toNat / 2 ^ 8 % 2 ^ 8 ∧ b.toNat = w.toNat % 2 ^ 8) ∧
    (∀ lvl, decode p w = .ok (.setbrt lvl) → lvl.toNat = w.toNat % 2 ^ 8) ∧
    (∀ space, decode p w = .ok (.encode space) → space.toNat = w.toNat / 2 ^ 24 % 2 ^ 16)

/-- 30_encoding.md sections 1 and 7 (R61, R76): a field a command does not use is ignored, and the assembler writes 0
there: the word the encoder gives back for a decoded word is that word with every ignored bit 0 (the `x` bits of
spec/opcode_table.json). -/
def Obligations.IgnoredFieldsAreDropped : Prop :=
  ∀ (p : Port) (w : CmdWord) (i : Instr), decode p w = .ok i →
    encode i = w &&& (match i with
      | .nop => 0xFF00000000000000
      | .set _ _ _ _ => 0xFFFFFF0000FFFFFF
      | .fill _ _ _ _ _ => 0xFFFFFFFFFFFFFFFF
      | .setbrt _ => 0xFF000000000000FF
      | .flush => 0xFF00000000000000
      | .encode _ => 0xFF0000FFFF000000
      | .encrst => 0xFF00000000000000)

/-- Decode and encode agree for every command and every operand value, on the command's own port; on the other port
the word is ILLEGAL. -/
def Obligations.DecodeEncodeAgree : Prop :=
  ∀ i : Instr, decode i.port (encode i) = .ok i ∧ ∀ p, p ≠ i.port → decode p (encode i) = .error .wrongPort

/-- 30_encoding.md section 7 (R76; the text syntax is not stated here): each line of R76 assembles to exactly its
word, the sum of its shifted fields, on the port of its mnemonic, when every operand is in its field's range, and is
refused otherwise. -/
def Obligations.AssemblerWordsAreTheirFields : Prop :=
  assemble .nop = some (.host, 0x0000000000000000) ∧
  (∀ idx r g b : Nat, assemble (.set idx r g b) =
    if idx < 65536 ∧ r < 256 ∧ g < 256 ∧ b < 256 then
      some (.host, BitVec.ofNat 64 (1 * 2 ^ 60 + idx * 2 ^ 40 + r * 2 ^ 16 + g * 2 ^ 8 + b))
    else none) ∧
  (∀ idx cnt r g b : Nat, assemble (.fill idx cnt r g b) =
    if idx < 65536 ∧ cnt < 65536 ∧ r < 256 ∧ g < 256 ∧ b < 256 then
      some (.host, BitVec.ofNat 64 (2 * 2 ^ 60 + idx * 2 ^ 40 + cnt * 2 ^ 24 + r * 2 ^ 16 + g * 2 ^ 8 + b))
    else none) ∧
  (∀ lvl : Nat, assemble (.setbrt lvl) =
    if lvl < 256 then some (.host, BitVec.ofNat 64 (3 * 2 ^ 60 + lvl)) else none) ∧
  assemble .flush = some (.host, 0x4000000000000000) ∧
  (∀ space : Nat, assemble (.encode space) =
    if space < 65536 then some (.pipeline, BitVec.ofNat 64 (8 * 2 ^ 60 + space * 2 ^ 24)) else none) ∧
  assemble .encrst = some (.pipeline, 0x9000000000000000)

/-- 30_encoding.md section 7 (R77): `SETC idx, #rrggbb` is `SET idx, 0xrr, 0xgg, 0xbb`, `FILLC` likewise, for every
index, count and channel, in range or not, and a literal of more than six digits is refused; FLUSHW is not a single
command word but a line of its own kind, which a program performs as the procedure `flushw`. -/
def Obligations.PseudoInstructionsExpand : Prop :=
  (∀ idx r g b : Nat, r < 256 → g < 256 → b < 256 →
    assemble (.setc idx (r * 65536 + g * 256 + b)) = assemble (.set idx r g b)) ∧
  (∀ idx cnt r g b : Nat, r < 256 → g < 256 → b < 256 →
    assemble (.fillc idx cnt (r * 65536 + g * 256 + b)) = assemble (.fill idx cnt r g b)) ∧
  (∀ idx cnt rgb : Nat, 16777216 ≤ rgb → assemble (.setc idx rgb) = none ∧ assemble (.fillc idx cnt rgb) = none) ∧
  (∀ space : Nat, assemble (.flushw space) = none ∧
    assembleItem none (.flushw space) = if space < 65536 then some (.flushw (BitVec.ofNat 16 space)) else none) ∧
  (∀ (limit : Nat) (space : Half), runItem limit (.flushw space) = flushw limit space)

/-- R67: which words are ILLEGAL, and what an accepted one does: no state changes, no symbol, the answer 0x0004_0000;
on the host port during a flush it is held and not answered. -/
def Obligations.IllegalWordsAreAnsweredErr : Prop :=
  (∀ (p : Port) (w : CmdWord),
    (∃ e, decode p w = .error e) ↔
      (w.toNat / 2 ^ 56 % 16 ≠ 0 ∨ w.toNat / 2 ^ 60 ∈ [5, 6, 7, 10, 11, 12, 13, 14, 15] ∨
        (w.toNat / 2 ^ 60 ≤ 4 ∧ p = .pipeline) ∨ (w.toNat / 2 ^ 60 ∈ [8, 9] ∧ p = .host))) ∧
  (∀ (s : State) (w : CmdWord) (e : Illegal) (q : List (Option CmdWord)) (r : List Agent),
    s.cfg.WellFormed → s.sched = .host :: r → s.hostPort = some w :: q → decode .host w = .error e →
    (s.busy = false →
      step s = .next { s with sched := r, hostPort := q, out := s.out ++ [.response .host 0x00040000] }) ∧
    (s.busy = true → step s = .next { s with sched := r })) ∧
  (∀ (s : State) (w : CmdWord) (e : Illegal) (q : List (Option CmdWord)) (r : List Agent),
    s.cfg.WellFormed → s.sched = .pipeline :: r → s.pipePort = some w :: q → decode .pipeline w = .error e →
    step s = .next { s with sched := r, pipePort := q, out := s.out ++ [.response .pipeline 0x00040000] })

/-! ### Steps: acceptance, hold, reset -/

/-- The machine's own frame around `exec`: the turn is spent, the word leaves its port, the decoded command runs. -/
def Obligations.StepRunsTheDecodedInstruction : Prop :=
  ∀ (s : State) (w : CmdWord) (i : Instr) (q : List (Option CmdWord)) (r : List Agent), s.cfg.WellFormed →
    (s.sched = .host :: r → s.hostPort = some w :: q → s.busy = false → decode .host w = .ok i →
      step s = exec i { s with sched := r, hostPort := q }) ∧
    (s.sched = .pipeline :: r → s.pipePort = some w :: q → decode .pipeline w = .ok i →
      step s = exec i { s with sched := r, pipePort := q })

/-- R156: `h_ready = NOT BUSY`; while BUSY = 1 a word on the host port, legal or not, is not accepted, changes nothing
and gets no response, and the Host stays at it; what makes BUSY 0 is an ENCODE that completes the frame, an ENCRST, or
a reset; once BUSY = 0 the word is accepted and performed. -/
def Obligations.HostWordIsHeldWhileBusy : Prop :=
  (∀ s : State, s.ready .host = !s.busy ∧ s.ready .pipeline = true) ∧
  (∀ (s : State) (w : CmdWord) (q : List (Option CmdWord)) (r : List Agent),
    s.cfg.WellFormed → s.sched = .host :: r → s.hostPort = some w :: q →
    (s.busy = true → step s = .next { s with sched := r }) ∧
    (s.busy = false → step s = perform .host w { s with sched := r, hostPort := q })) ∧
  (∀ s t : State, s.Inv → s.busy = true → step s = .next t → t.busy = false →
    (∃ r, s.sched = .reset :: r) ∨
    (∃ w q r, s.sched = .pipeline :: r ∧ s.pipePort = some w :: q ∧
      (decode .pipeline w = .ok .encrst ∨
        ∃ space, decode .pipeline w = .ok (.encode space) ∧ s.remaining.length ≤ space.toNat)))

/-- R196: a flush that gets no space never ends and the held command is never passed: as long as the Pipeline issues
only `ENCODE 0` and there is no reset, every number of steps leaves BUSY 1, the host command where it is, the block
unchanged and no symbol emitted. -/
def Obligations.AFlushWithoutSpaceHangs : Prop :=
  ∀ (n : Nat) (s : State) (w : CmdWord) (q : List (Option CmdWord)), s.Inv → s.busy = true →
    s.hostPort = some w :: q → (∀ a ∈ s.sched, a ≠ .reset) →
    (∀ x ∈ s.pipePort, x = none ∨ ∃ v, x = some v ∧ decode .pipeline v = .ok (.encode 0)) →
    ∃ t, Sys2Proof.core.run n s = .next t ∧ t.busy = true ∧ t.hostPort = s.hostPort ∧ t.pix = s.pix ∧
      t.brt = s.brt ∧ t.phase = s.phase ∧ t.byteIdx = s.byteIdx ∧ t.bitIdx = s.bitIdx ∧
      symbolsOf t.out = symbolsOf s.out

/-- 10_state.md section 9 (R33, whose BYTE_IDX and BIT_IDX rows the spec marks derived, and whose BUSY row is its
decision D7): the value of every element of the state after reset, for every parameter set; the symbol stream is empty
then, and stays so until the first ENCODE that follows a FLUSH: a step with BUSY = 0 emits no symbol, and only a FLUSH
makes BUSY 1. The last two clauses are about `State.reset`, which is that state for the parameter set the model chose
(DESIGN CHOICE, assumption log 2); that this set is well formed rests on the chosen values. -/
def Obligations.ResetValues : Prop :=
  (∀ c : Config,
    (∀ a, Memory.get (State.resetOf c).pix a = 0) ∧
    (State.resetOf c).brt = (if c.brightnessCfg = 0 then 255 else c.brightnessCfg) ∧
    (State.resetOf c).phase = .data ∧ (State.resetOf c).byteIdx = 0 ∧ (State.resetOf c).bitIdx = 0 ∧
    (State.resetOf c).busy = false ∧ (State.resetOf c).cfg = c ∧ symbolsOf (State.resetOf c).out = []) ∧
  (∀ s t : State, s.busy = false → step s = .next t →
    symbolsOf t.out = symbolsOf s.out ∧
    (t.busy = true → ∃ w q r, s.sched = .host :: r ∧ s.hostPort = some w :: q ∧ decode .host w = .ok .flush)) ∧
  State.reset = State.resetOf State.reset.cfg ∧ State.reset.cfg.WellFormed

/-- 70_reset_and_hazards.md section 1 (R190, R191): a reset puts the block in the state of R33 from any state, during
a flush too; it emits no symbol and no response; a command presented or held at that moment, the head of its port's
list in this model (DEDUCED, assumption log 7), is dropped; symbols already emitted stay emitted. -/
def Obligations.ResetStepFromAnyState : Prop :=
  ∀ (s : State) (r : List Agent), s.cfg.WellFormed → s.sched = .reset :: r →
    ∃ p, step s = .next
        { cfg := s.cfg, pix := p, brt := if s.cfg.brightnessCfg = 0 then 255 else s.cfg.brightnessCfg,
          phase := .data, byteIdx := 0, bitIdx := 0, busy := false,
          hostPort := s.hostPort.tail, pipePort := s.pipePort.tail, sched := r, out := s.out } ∧
      ∀ a, Memory.get p a = 0

/-- 00_scope.md section 3 (R6, and R7 that the spec derives from it): the parameters are fixed for the life of an
instance, and an ill-formed set is refused before any step. -/
def Obligations.ParametersAreFixed : Prop :=
  (∀ s t : State, step s = .next t → t.cfg = s.cfg) ∧
  (∀ s : State, ¬ s.cfg.WellFormed → step s = .refused .illFormedParameters) ∧
  (∀ c : Config, c.WellFormed ↔
    1 ≤ c.numLeds ∧ c.numLeds ≤ 65535 ∧ ∃ k, 1 ≤ k ∧ k ≤ 131 ∧ c.resHz = k * 10000000)

/-! ### Invariants and whole-machine rules -/

/-- 10_state.md section 4 (R28, which the spec derives from other rules): its invariants hold at reset, for every
well-formed parameter set; the canonical form of the buffer's cells is the model's own part of `State.Inv`. The second
clause is about the parameter set the model chose for `State.reset` (DESIGN CHOICE, assumption log 2). -/
def Obligations.InvariantHoldsAtReset : Prop :=
  (∀ c : Config, c.WellFormed → (State.resetOf c).Inv) ∧ State.reset.Inv

/-- 10_state.md section 4 (R28, which the spec derives from other rules): the invariants are kept by every step,
whichever agent moves and whatever it presents; the canonical form of the buffer's cells is the model's own part. -/
def Obligations.EveryStepKeepsTheInvariant : Prop :=
  ∀ s t : State, s.Inv → step s = .next t → t.Inv

/-- R170: no step traps, faults or stops, and every command with every operand answers success (ERR = 0), in every
state that meets the invariants of R28. -/
def Obligations.NothingTraps : Prop :=
  (∀ s : State, s.Inv → ∃ t, step s = .next t) ∧
  (∀ (i : Instr) (s : State), s.Inv →
    ∃ t evs w, exec i s = .next t ∧ t.out = s.out ++ evs ++ [.response i.port w] ∧ w.getLsbD 18 = false)

/-- 10_state.md section 1 (R20, the column "Written by") and 00_scope.md section 3 (R6): a command that changes an
element of the state is one of those the table names, and no command touches the parameters, the ports, the schedule
or the events already out. -/
def Obligations.StateIsWrittenOnlyByItsWriters : Prop :=
  ∀ (i : Instr) (s t : State), exec i s = .next t →
    (t.pix ≠ s.pix → (∃ idx r g b, i = .set idx r g b) ∨ ∃ idx cnt r g b, i = .fill idx cnt r g b) ∧
    (t.brt ≠ s.brt → ∃ lvl, i = .setbrt lvl) ∧
    ((t.phase, t.byteIdx, t.bitIdx, t.busy) ≠ (s.phase, s.byteIdx, s.bitIdx, s.busy) →
      i = .flush ∨ i = .encrst ∨ ∃ space, i = .encode space) ∧
    t.cfg = s.cfg ∧ t.hostPort = s.hostPort ∧ t.pipePort = s.pipePort ∧ t.sched = s.sched ∧ s.out <+: t.out

/-- 20_memory.md R49 (a) and R51: while BUSY = 1 no step but a reset changes PIX or BRT. -/
def Obligations.BufferIsFrozenWhileBusy : Prop :=
  ∀ s t : State, s.busy = true → step s = .next t → (∀ r, s.sched ≠ .reset :: r) → t.pix = s.pix ∧ t.brt = s.brt

/-- 20_memory.md R51, 10_state.md R23: BRT is read by SET and FILL and by nothing else: another brightness changes
nothing of what NOP, FLUSH, ENCODE and ENCRST do or emit. -/
def Obligations.BrightnessIsInvisibleToTheEncoder : Prop :=
  ∀ (i : Instr) (s t : State) (v : Byte),
    i = .nop ∨ i = .flush ∨ i = .encrst ∨ (∃ space, i = .encode space) →
    exec i s = .next t → exec i { s with brt := v } = .next { t with brt := v }

/-- 30_encoding.md sections 3, 5 and 6, 95_test_vectors.md section 2.3: a step only adds to the output, symbols before
the one response; the block emits no other symbol than its three; a response is one of the words that can occur, and
NSYM counts the symbols. -/
def Obligations.OutputsAreSymbolsThenOneResponse : Prop :=
  ∀ s t : State, step s = .next t →
    ∃ (ws : List SymWord) (rs : List Event), t.out = s.out ++ ws.map .symbol ++ rs ∧
      (∀ w ∈ ws, w = (bit0Sym s.cfg.k).pack ∨ w = (bit1Sym s.cfg.k).pack ∨ w = (resetSym s.cfg.k).pack) ∧
      ((rs = [] ∧ ws = []) ∨ ∃ p w, rs = [.response p w] ∧
        w.toNat % 2 ^ 16 = ws.length ∧ w.toNat < 2 ^ 19 ∧ ¬ (w.getLsbD 16 = true ∧ w.getLsbD 17 = true) ∧
        (w.getLsbD 18 = true → w = 0x00040000) ∧ (w.getLsbD 17 = true → 1 ≤ ws.length) ∧
        (p = .host → ws = [] ∧ (w = 0 ∨ w = 0x00040000)))

/-! ### NOP, SETBRT, FLUSH, ENCRST -/

/-- R150: NOP changes nothing and answers success. -/
def Obligations.NopChangesNothing : Prop :=
  ∀ s : State, s.busy = false → exec .nop s = .next { s with out := s.out ++ [.response .host 0x00000000] }

/-- R151: SETBRT stores the level as given, 0 included, rescales nothing, and answers success. -/
def Obligations.SetbrtStoresTheLevel : Prop :=
  ∀ (lvl : Byte) (s : State), s.busy = false →
    exec (.setbrt lvl) s = .next { s with brt := lvl, out := s.out ++ [.response .host 0x00000000] }

/-- R152: FLUSH starts a session: place 0, phase Data, BUSY 1; no symbol; PIX and BRT untouched; and the session then
lacks the whole frame of the buffer's content. -/
def Obligations.FlushStartsASession : Prop :=
  ∀ s : State, s.busy = false →
    ∃ t, exec .flush s = .next t ∧
      t = { s with
        phase := .data, byteIdx := 0, bitIdx := 0, busy := true
        out := s.out ++ [.response .host 0x00000000] } ∧
      t.remaining = frame s.cfg.k s.bytes

/-- R128: ENCRST abandons the session, with BUSY 0 or 1: place 0, phase Data, BUSY 0; no symbol; PIX and BRT
untouched; with BUSY = 0 it changes nothing; and it is idempotent. -/
def Obligations.EncrstAbandonsTheSession : Prop :=
  (∀ s : State,
    exec .encrst s = .next
      { s with
        phase := .data, byteIdx := 0, bitIdx := 0, busy := false
        out := s.out ++ [.response .pipeline 0x00000000] }) ∧
  (∀ s : State, s.SessionInv → s.busy = false →
    exec .encrst s = .next { s with out := s.out ++ [.response .pipeline 0x00000000] }) ∧
  (∀ s t u : State, exec .encrst s = .next t → exec .encrst t = .next u →
    { u with out := [] } = { t with out := [] })

/-! ### SET and FILL -/

/-- R101, R102, R103: SET writes the scaled green, red and blue of the clamped LED at offsets 3i, 3i + 1, 3i + 2, no
other byte and no other state, and answers success. -/
def Obligations.SetWritesOneLed : Prop :=
  ∀ (idx : Half) (r g b : Byte) (s : State) (i : Nat), s.Inv → s.busy = false →
    i = min idx.toNat (s.cfg.numLeds - 1) →
    ∃ p, exec (.set idx r g b) s = .next { s with pix := p, out := s.out ++ [.response .host 0x00000000] } ∧
      Memory.get p (3 * i) = scale g s.brt ∧ Memory.get p (3 * i + 1) = scale r s.brt ∧
      Memory.get p (3 * i + 2) = scale b s.brt ∧ 3 * i + 2 < s.cfg.len ∧
      ∀ a, a < 3 * i ∨ 3 * i + 3 ≤ a → Memory.get p a = Memory.get s.pix a

/-- 41_pixel_buffer.md sections 1 and 2 (R101, R103 (a); 95_test_vectors.md S4) for SET and section 3 (R104) for FILL:
an index at or beyond the LED count behaves identically to the last LED. For FILL with count = 0 this rests on the
spec's own decision D14 (92_eei_decisions.md): the end is formed from the already clamped index, so nothing is
written. -/
def Obligations.OutOfRangeIndexIsTheLastLed : Prop :=
  ∀ (idx cnt : Half) (r g b : Byte) (s : State), s.cfg.WellFormed → s.cfg.numLeds ≤ idx.toNat →
    exec (.set idx r g b) s = exec (.set (BitVec.ofNat 16 (s.cfg.numLeds - 1)) r g b) s ∧
    exec (.fill idx cnt r g b) s = exec (.fill (BitVec.ofNat 16 (s.cfg.numLeds - 1)) cnt r g b) s

/-- 95_test_vectors.md S5 (41_pixel_buffer.md section 2): at brightness 255 the bytes of an addressed LED are exactly
(g, r, b); at brightness 0 they are (0, 0, 0). -/
def Obligations.SetAtFullBrightnessStoresTheColour : Prop :=
  ∀ (idx : Half) (r g b : Byte) (s : State), s.Inv → s.busy = false → idx.toNat < s.cfg.numLeds →
    ∃ t, exec (.set idx r g b) s = .next t ∧
      (s.brt = 255 → Memory.get t.pix (3 * idx.toNat) = g ∧ Memory.get t.pix (3 * idx.toNat + 1) = r ∧
        Memory.get t.pix (3 * idx.toNat + 2) = b) ∧
      (s.brt = 0 → Memory.get t.pix (3 * idx.toNat) = 0 ∧ Memory.get t.pix (3 * idx.toNat + 1) = 0 ∧
        Memory.get t.pix (3 * idx.toNat + 2) = 0)

/-- R105: FILL with FILL_MODE = SINGLE writes LED i alone when count ≥ 1 and nothing when count = 0; a fill of one LED
or more is exactly SET; it answers success. -/
def Obligations.FillSingleWritesOneLed : Prop :=
  ∀ (idx cnt : Half) (r g b : Byte) (s : State) (i : Nat), s.Inv → s.busy = false → s.cfg.fillMode = .single →
    i = min idx.toNat (s.cfg.numLeds - 1) →
    ∃ p, exec (.fill idx cnt r g b) s = .next { s with pix := p, out := s.out ++ [.response .host 0x00000000] } ∧
      (cnt = 0 → p = s.pix) ∧
      (cnt ≠ 0 → exec (.fill idx cnt r g b) s = exec (.set idx r g b) s ∧
        Memory.get p (3 * i) = scale g s.brt ∧ Memory.get p (3 * i + 1) = scale r s.brt ∧
        Memory.get p (3 * i + 2) = scale b s.brt) ∧
      ∀ a, a < 3 * i ∨ 3 * i + 3 ≤ a → Memory.get p a = Memory.get s.pix a

/-- R106: FILL with FILL_MODE = RANGE writes LEDs i .. e − 1, all with the same three scaled bytes, no other byte,
nothing when count = 0; a fill of one LED is exactly SET; it answers success. -/
def Obligations.FillRangeWritesItsLeds : Prop :=
  ∀ (idx cnt : Half) (r g b : Byte) (s : State) (i e : Nat), s.Inv → s.busy = false → s.cfg.fillMode = .range →
    i = min idx.toNat (s.cfg.numLeds - 1) → e = min (i + cnt.toNat) s.cfg.numLeds →
    ∃ p, exec (.fill idx cnt r g b) s = .next { s with pix := p, out := s.out ++ [.response .host 0x00000000] } ∧
      (cnt = 0 → p = s.pix) ∧ (cnt = 1 → exec (.fill idx cnt r g b) s = exec (.set idx r g b) s) ∧
      (∀ led, i ≤ led → led < e →
        Memory.get p (3 * led) = scale g s.brt ∧ Memory.get p (3 * led + 1) = scale r s.brt ∧
        Memory.get p (3 * led + 2) = scale b s.brt) ∧
      ∀ a, a < 3 * i ∨ 3 * e ≤ a → Memory.get p a = Memory.get s.pix a

/-- 41_pixel_buffer.md section 3 (R107): in both modes only LEDs i .. e − 1 may change, and none outside the buffer;
where at most one LED is in the range, the two modes leave the same buffer, and elsewhere they differ only in LEDs i +
1 .. e − 1. -/
def Obligations.FillModesDifferOnlyBeyondTheFirstLed : Prop :=
  ∀ (idx cnt : Half) (r g b : Byte) (s : State) (i e : Nat), s.Inv →
    i = min idx.toNat (s.cfg.numLeds - 1) → e = min (i + cnt.toNat) s.cfg.numLeds →
    ∃ t u, exec (.fill idx cnt r g b) { s with cfg := { s.cfg with fillMode := .single } } = .next t ∧
      exec (.fill idx cnt r g b) { s with cfg := { s.cfg with fillMode := .range } } = .next u ∧
      (e - i ≤ 1 → t.pix = u.pix) ∧
      (∀ a, a < 3 * (i + 1) ∨ 3 * e ≤ a → Memory.get t.pix a = Memory.get u.pix a) ∧
      (∀ a, a < 3 * i ∨ 3 * e ≤ a ∨ s.cfg.len ≤ a →
        Memory.get t.pix a = Memory.get s.pix a ∧ Memory.get u.pix a = Memory.get s.pix a)

/-- 20_memory.md section 3 (R47): SET and FILL are idempotent: repeated, they leave the same buffer. -/
def Obligations.SetAndFillAreIdempotent : Prop :=
  ∀ (i : Instr) (s t u : State), s.Inv →
    ((∃ idx r g b, i = .set idx r g b) ∨ ∃ idx cnt r g b, i = .fill idx cnt r g b) →
    exec i s = .next t → exec i t = .next u → u.pix = t.pix

/-! ### Symbols and frames -/

/-- R69, R70, R71: the three symbol words for every K of R6, with no duration truncated to its 15 bits and none 0. -/
def Obligations.SymbolWordsForEveryTickRate : Prop :=
  (∀ k : Nat, 1 ≤ k → k ≤ 131 →
    (bit0Sym k).pack.toNat = 9 * k * 2 ^ 16 + 2 ^ 15 + 3 * k ∧
    (bit1Sym k).pack.toNat = 3 * k * 2 ^ 16 + 2 ^ 15 + 9 * k ∧
    (resetSym k).pack.toNat = 250 * k * 2 ^ 16 + 250 * k ∧
    dataSym k false = bit0Sym k ∧ dataSym k true = bit1Sym k ∧
    Symbol.wave (bit0Sym k) = [(true, 3 * k), (false, 9 * k)] ∧
    Symbol.wave (bit1Sym k) = [(true, 9 * k), (false, 3 * k)] ∧
    Symbol.wave (resetSym k) = [(false, 250 * k), (false, 250 * k)] ∧
    0 < 3 * k ∧ 250 * k ≤ 32767) ∧
  (bit0Sym 1).pack = 0x00098003 ∧ (bit1Sym 1).pack = 0x00038009 ∧ (resetSym 1).pack = 0x00FA00FA

/-- 42_protocol_encoder.md section 6 (R130, which the spec derives from other rules): a frame is `8 × LEN + 1 = 24 ×
NUM_LEDS + 1` symbols; its t-th is the data symbol of bit `7 − (t mod 8)` of byte `t div 8`, its last is RESET_SYM; it
lasts `8 × LEN × 12K + 500K` ticks. -/
def Obligations.FrameShapeAndDuration : Prop :=
  ∀ s : State, s.cfg.WellFormed →
    (frame s.cfg.k s.bytes).length = s.cfg.frameSyms ∧ s.cfg.frameSyms = 24 * s.cfg.numLeds + 1 ∧
    (∀ t, t < 8 * s.cfg.len → (frame s.cfg.k s.bytes)[t]? =
      some (dataSym s.cfg.k ((Memory.get s.pix (t / 8)).getLsbD (7 - t % 8))).pack) ∧
    (frame s.cfg.k s.bytes)[8 * s.cfg.len]? = some (resetSym s.cfg.k).pack ∧
    ticksOf (waveOf (frame s.cfg.k s.bytes)) = 8 * s.cfg.len * (12 * s.cfg.k) + 500 * s.cfg.k

/-- 42_protocol_encoder.md section 6 (R133, derived there; the reading is 30_encoding.md R73): decoding a frame by
pulse width gives the bits of its bytes, most significant first, then one reset symbol of 500K ticks of low; and two
buffers with the same frame are the same. -/
def Obligations.FrameDecodesToItsBits : Prop :=
  ∀ (k : Nat) (bytes : List Byte), 1 ≤ k → k ≤ 131 →
    (frame k bytes).map (readSym k) =
      (bytes.flatMap byteBits).map (fun v => some (.bit v)) ++ [some (.latch (500 * k))] ∧
    ∀ other : List Byte, frame k other = frame k bytes → other = bytes

/-! ### ENCODE and the session -/

/-- R125: the pipeline port is always ready, and an ENCODE with no flush submitted does nothing and answers the empty
status. -/
def Obligations.EncodeIsIdleWithoutAFlush : Prop :=
  (∀ s : State, s.ready .pipeline = true) ∧
  ∀ (space : Half) (s : State), s.busy = false →
    exec (.encode space) s = .next { s with out := s.out ++ [.response .pipeline 0x00000000] }

/-- R127: with W symbols lacking, ENCODE emits the first `min(space, W)` of them, answers that count with COMPLETE iff
`space ≥ W` and FULL iff `space < W`, and leaves the session in the state of R127's table; PIX, BRT and everything
else unchanged; with BUSY = 0 it is idle. -/
def Obligations.EncodeClosedForm : Prop :=
  (∀ (space : Half) (s : State), s.busy = false →
    exec (.encode space) s = .next { s with out := s.out ++ [.response .pipeline 0x00000000] }) ∧
  ∀ (space : Half) (s : State) (W : Nat), s.Inv → s.busy = true →
    W = (if s.phase = .data then 8 * s.cfg.len - (8 * s.byteIdx.toNat + s.bitIdx.toNat) + 1 else 1) →
    1 ≤ W ∧ W ≤ s.cfg.frameSyms ∧ s.remaining.length = W ∧
    ∃ t w, exec (.encode space) s = .next t ∧
      t.out = s.out ++ (s.remaining.take space.toNat).map .symbol ++ [.response .pipeline w] ∧
      w.toNat = min space.toNat W + (if W ≤ space.toNat then 2 ^ 17 else 2 ^ 16) ∧
      t.pix = s.pix ∧ t.brt = s.brt ∧ t.cfg = s.cfg ∧ t.hostPort = s.hostPort ∧ t.pipePort = s.pipePort ∧
      t.sched = s.sched ∧
      (if W ≤ space.toNat then t.phase = .data ∧ t.pos = 0 ∧ t.busy = false
       else if s.phase = .data ∧ space.toNat + 1 < W then
         t.phase = .data ∧ t.pos = s.pos + space.toNat ∧ t.busy = true
       else t.phase = .reset ∧ t.pos = 0 ∧ t.busy = true)

/-- 42_protocol_encoder.md section 6 (R132, derived there): an ENCODE accepted with BUSY = 1 and `space ≥ 1` emits at
least one symbol; one with `space = 0` emits none and changes nothing. -/
def Obligations.EncodeProgress : Prop :=
  ∀ (space : Half) (s : State), s.Inv → s.busy = true →
    (space ≠ 0 → ∃ t, exec (.encode space) s = .next t ∧
      (symbolsOf s.out).length + 1 ≤ (symbolsOf t.out).length) ∧
    (space = 0 → exec (.encode space) s = .next { s with out := s.out ++ [.response .pipeline 0x00010000] })

/-- 60_exceptions.md section 2 (R173, R174): a yield is precise and the next ENCODE continues from it: two ENCODE of
spaces a and b leave the same block and the same symbol stream as one ENCODE of space a + b. -/
def Obligations.EncodeResumesWhereItYielded : Prop :=
  ∀ (a b : Half) (s : State), s.Inv → s.busy = true → a.toNat + b.toNat ≤ 65535 →
    ∃ t u v, exec (.encode a) s = .next t ∧ exec (.encode b) t = .next u ∧ exec (.encode (a + b)) s = .next v ∧
      symbolsOf u.out = symbolsOf v.out ∧
      { u with out := [] } = { v with out := [] }

/-- 42_protocol_encoder.md section 6 (R131, derived there), the frame law: FLUSH with buffer content P, then ENCODE
s1, s2, … Whatever the spaces, the symbols emitted are the first `min(s1 + … + sm, FRAME_SYMS)` of `frame(P)`; as long
as the sum is short every response is FULL with `NSYM = sj` and BUSY stays 1; the call that reaches the sum answers
COMPLETE with the count that was lacking, BUSY is 0 and the session is in its initial state; later calls are idle. -/
def Obligations.FrameLaw : Prop :=
  ∀ (spaces : List Half) (s : State), s.Inv → s.busy = false →
    ∃ t0, exec .flush s = .next t0 ∧
      ((spaces.map BitVec.toNat).sum < s.cfg.frameSyms →
        ∃ t, encodeAll spaces t0 = .next t ∧ t.busy = true ∧ t.pix = s.pix ∧
          symbolsOf t.out = symbolsOf s.out ++ (frame s.cfg.k s.bytes).take (spaces.map BitVec.toNat).sum ∧
          (responsesOf .pipeline t.out).map BitVec.toNat =
            (responsesOf .pipeline s.out).map BitVec.toNat ++ spaces.map (fun x => 2 ^ 16 + x.toNat)) ∧
      (∀ (before after : List Half) (last : Half), spaces = before ++ last :: after →
        (before.map BitVec.toNat).sum < s.cfg.frameSyms →
        s.cfg.frameSyms ≤ (before.map BitVec.toNat).sum + last.toNat →
        ∃ t, encodeAll spaces t0 = .next t ∧ t.busy = false ∧ t.phase = .data ∧ t.pos = 0 ∧ t.pix = s.pix ∧
          symbolsOf t.out = symbolsOf s.out ++ frame s.cfg.k s.bytes ∧
          (responsesOf .pipeline t.out).map BitVec.toNat =
            (responsesOf .pipeline s.out).map BitVec.toNat ++ before.map (fun x => 2 ^ 16 + x.toNat) ++
              [2 ^ 17 + (s.cfg.frameSyms - (before.map BitVec.toNat).sum)] ++ after.map (fun _ => 0))

/-- 43_driver_control.md section 4 (R158 (b)) with the interlock of 20_memory.md R49 (b): whatever the agents do short
of an abort, every step of a session moves symbols from what the session lacks to the stream, in order, and loses
none; so the stream of a flush that completes is the frame, under every interleaving. -/
def Obligations.EveryStepConservesTheFrame : Prop :=
  ∀ s t : State, s.Inv → s.busy = true → s.abortsNext = false → step s = .next t →
    symbolsOf t.out ++ t.remaining = symbolsOf s.out ++ s.remaining

/-- 42_protocol_encoder.md section 6 (R129, derived there): the edges of a session in progress, row by row, each with the
symbols it emits. With `space` the ENCODE's space (0 in a step without one): in Data, `space < 8·LEN − POS` moves POS on by
`space` with that many data symbols; `space = 8·LEN − POS` goes to Reset with exactly the data symbols left; more ends the
session with them and RESET_SYM; in Reset, no space changes and emits nothing, and any space ends the session with
RESET_SYM. No edge leaves Data without the data all out, and none ends a session, short of an abort, without RESET_SYM. -/
def Obligations.SessionEdges : Prop :=
  ∀ s t : State, s.Inv → s.busy = true → s.abortsNext = false → step s = .next t →
    (s.phase = .data → s.spaceNext < 8 * s.cfg.len - s.pos →
      t.phase = .data ∧ t.busy = true ∧ t.pos = s.pos + s.spaceNext ∧
      symbolsOf t.out = symbolsOf s.out ++ ((frame s.cfg.k s.bytes).drop s.pos).take s.spaceNext) ∧
    (s.phase = .data → s.spaceNext = 8 * s.cfg.len - s.pos →
      t.phase = .reset ∧ t.busy = true ∧ t.pos = 0 ∧
      symbolsOf t.out ++ [(resetSym s.cfg.k).pack] = symbolsOf s.out ++ (frame s.cfg.k s.bytes).drop s.pos) ∧
    (s.phase = .data → 8 * s.cfg.len - s.pos < s.spaceNext →
      t.phase = .data ∧ t.busy = false ∧ t.pos = 0 ∧
      symbolsOf t.out = symbolsOf s.out ++ (frame s.cfg.k s.bytes).drop s.pos ∧
      (symbolsOf t.out).getLast? = some (resetSym s.cfg.k).pack) ∧
    (s.phase = .reset → s.spaceNext = 0 →
      t.phase = .reset ∧ t.busy = true ∧ t.pos = 0 ∧ symbolsOf t.out = symbolsOf s.out) ∧
    (s.phase = .reset → 1 ≤ s.spaceNext →
      t.phase = .data ∧ t.busy = false ∧ t.pos = 0 ∧
      symbolsOf t.out = symbolsOf s.out ++ [(resetSym s.cfg.k).pack])

/-- 60_exceptions.md section 5 (R178 (b)): the order of a FLUSH and an ENCODE presented together shows: FLUSH first,
the ENCODE emits the frame's beginning; ENCODE first, it is idle and nothing is emitted. -/
def Obligations.OrderOfFlushAndEncodeShows : Prop :=
  ∀ (space : Half) (s : State), s.Inv → s.busy = false →
    (∃ t u, exec .flush s = .next t ∧ exec (.encode space) t = .next u ∧
      symbolsOf u.out = symbolsOf s.out ++ (frame s.cfg.k s.bytes).take space.toNat) ∧
    (∃ t u, exec (.encode space) s = .next t ∧ exec .flush t = .next u ∧ symbolsOf u.out = symbolsOf s.out ∧
      u.busy = true)

/-- 30_encoding.md section 7 (R77), 43_driver_control.md sections 1 to 3 (R152, R153, R156): FLUSHW with a space of 1
or more ends, having emitted exactly the frame, with BUSY 0 and a COMPLETE answered; with space 0 it never ends; at
BUSY = 1 its FLUSH is held on the host port and nothing else changes; and once the hold has lifted it goes on from
there and emits its own frame. That its ENCODE commands wait for its FLUSH to be accepted is DEDUCED (assumption log
13); that its FLUSH stands ahead of a word already held on the host port is a DESIGN CHOICE (assumption log 18). -/
def Obligations.FlushwEmitsOneFrame : Prop :=
  (∀ (limit : Nat) (space : Half) (s : State), s.Inv → s.busy = false → 1 ≤ space.toNat →
    s.cfg.frameSyms ≤ limit →
    ∃ t, flushw limit space s = .next t ∧ t.busy = false ∧ t.completed = true ∧ t.pix = s.pix ∧ t.brt = s.brt ∧
      symbolsOf t.out = symbolsOf s.out ++ frame s.cfg.k s.bytes) ∧
  (∀ (limit : Nat) (s : State), s.Inv → s.busy = false →
    ∃ t, flushw limit 0 s = .next t ∧ t.busy = true ∧ symbolsOf t.out = symbolsOf s.out) ∧
  (∀ (limit : Nat) (space : Half) (s : State), s.Inv → s.busy = true →
    flushw limit space s = .next { s with hostPort := some 0x4000000000000000 :: s.hostPort }) ∧
  (∀ (limit : Nat) (space : Half) (s : State) (q : List (Option CmdWord)), s.Inv → s.busy = false →
    s.hostPort = some 0x4000000000000000 :: q → 1 ≤ space.toNat → s.cfg.frameSyms ≤ limit →
    ∃ t, flushwOffered limit space s = .next t ∧ t.busy = false ∧ t.hostPort = q ∧ t.pix = s.pix ∧
      symbolsOf t.out = symbolsOf s.out ++ frame s.cfg.k s.bytes)

/-- 70_reset_and_hazards.md section 2 (R192): a FLUSH issued immediately after reset sends an all-dark frame: every
data symbol is BIT0_SYM, then RESET_SYM, whatever the parameters. -/
def Obligations.FirstFlushIsDark : Prop :=
  ∀ (c : Config) (limit : Nat) (space : Half), c.WellFormed → 1 ≤ space.toNat → c.frameSyms ≤ limit →
    ∃ t, flushw limit space (State.resetOf c) = .next t ∧ t.busy = false ∧
      symbolsOf t.out = List.replicate (8 * c.len) (bit0Sym c.k).pack ++ [(resetSym c.k).pack]
end

