-- ==== Sys2Proof/Laws/Decode.lean ====
section
/-!
SUPPORT. The fields of an assembled command word, and the opcode map read by its codes (30_encoding.md R61, R64).
-/

namespace Sys2Proof

/-- A command word bit by bit: B, G, R, CNT, IDX, RSV = 0, OP from the least significant end (R61). -/
theorem getLsbD_cmdPack (op : BitVec 4) (idx cnt : Half) (r g b : Byte) (i : Nat) :
    (cmdPack op idx cnt r g b).getLsbD i =
      if i < 8 then b.getLsbD i
      else if i < 16 then g.getLsbD (i - 8)
      else if i < 24 then r.getLsbD (i - 16)
      else if i < 40 then cnt.getLsbD (i - 24)
      else if i < 56 then idx.getLsbD (i - 40)
      else if i < 60 then false
      else op.getLsbD (i - 60) := by
  have h : (cmdPack op idx cnt r g b).getLsbD i =
      (op ++ (0 : BitVec 4) ++ idx ++ cnt ++ r ++ g ++ b : BitVec (4 + 4 + 16 + 16 + 8 + 8 + 8)).getLsbD i := rfl
  rw [h]
  simp only [BitVec.getLsbD_append]
  repeat' split
  all_goals first | omega | rfl | simp

section Fields

variable (op : BitVec 4) (idx cnt : Half) (r g b : Byte)

@[simp] theorem cmdOp_cmdPack : cmdOp (cmdPack op idx cnt r g b) = op := by
  refine BitVec.eq_of_getLsbD_eq fun i hi => ?_
  rw [cmdOp, BitVec.getLsbD_extractLsb', getLsbD_cmdPack]
  simp [hi, show ¬ 60 + i < 8 by omega, show ¬ 60 + i < 16 by omega, show ¬ 60 + i < 24 by omega,
    show ¬ 60 + i < 40 by omega, show ¬ 60 + i < 56 by omega]

@[simp] theorem cmdRsv_cmdPack : cmdRsv (cmdPack op idx cnt r g b) = 0 := by
  refine BitVec.eq_of_getLsbD_eq fun i hi => ?_
  rw [cmdRsv, BitVec.getLsbD_extractLsb', getLsbD_cmdPack]
  simp [hi, show ¬ 56 + i < 8 by omega, show ¬ 56 + i < 16 by omega, show ¬ 56 + i < 24 by omega,
    show ¬ 56 + i < 40 by omega, show 56 + i < 60 by omega]

@[simp] theorem cmdIdx_cmdPack : cmdIdx (cmdPack op idx cnt r g b) = idx := by
  refine BitVec.eq_of_getLsbD_eq fun i hi => ?_
  rw [cmdIdx, BitVec.getLsbD_extractLsb', getLsbD_cmdPack]
  simp [hi, show ¬ 40 + i < 8 by omega, show ¬ 40 + i < 16 by omega, show ¬ 40 + i < 24 by omega,
    show 40 + i < 56 by omega]

@[simp] theorem cmdCnt_cmdPack : cmdCnt (cmdPack op idx cnt r g b) = cnt := by
  refine BitVec.eq_of_getLsbD_eq fun i hi => ?_
  rw [cmdCnt, BitVec.getLsbD_extractLsb', getLsbD_cmdPack]
  simp [hi, show ¬ 24 + i < 8 by omega, show ¬ 24 + i < 16 by omega, show 24 + i < 40 by omega]

@[simp] theorem cmdR_cmdPack : cmdR (cmdPack op idx cnt r g b) = r := by
  refine BitVec.eq_of_getLsbD_eq fun i hi => ?_
  rw [cmdR, BitVec.getLsbD_extractLsb', getLsbD_cmdPack]
  simp [hi, show ¬ 16 + i < 8 by omega, show 16 + i < 24 by omega]

@[simp] theorem cmdG_cmdPack : cmdG (cmdPack op idx cnt r g b) = g := by
  refine BitVec.eq_of_getLsbD_eq fun i hi => ?_
  rw [cmdG, BitVec.getLsbD_extractLsb', getLsbD_cmdPack]
  simp [hi, show 8 + i < 16 by omega]

@[simp] theorem cmdB_cmdPack : cmdB (cmdPack op idx cnt r g b) = b := by
  refine BitVec.eq_of_getLsbD_eq fun i hi => ?_
  rw [cmdB, BitVec.getLsbD_extractLsb', getLsbD_cmdPack]
  simp [hi]

end Fields

/-! ### The fields as numbers (R61) -/

theorem cmdOp_toNat (w : CmdWord) : (cmdOp w).toNat = w.toNat / 2 ^ 60 := by
  have := w.isLt
  simp only [cmdOp, BitVec.extractLsb'_toNat, Nat.shiftRight_eq_div_pow]
  omega

theorem cmdRsv_toNat (w : CmdWord) : (cmdRsv w).toNat = w.toNat / 2 ^ 56 % 2 ^ 4 := by
  simp only [cmdRsv, BitVec.extractLsb'_toNat, Nat.shiftRight_eq_div_pow]

/-- The mask of R64 keeps OP and RSV. -/
theorem and_mask_toNat (w : CmdWord) : (w &&& 0xFF00000000000000).toNat = w.toNat / 2 ^ 56 * 2 ^ 56 := by
  have h : w &&& (0xFF00000000000000 : CmdWord) = (w >>> 56) <<< 56 := by
    refine BitVec.eq_of_getLsbD_eq fun i hi => ?_
    have hm : (0xFF00000000000000 : CmdWord) = BitVec.allOnes 64 <<< 56 := by decide
    rw [hm]
    simp only [BitVec.getLsbD_and, BitVec.getLsbD_shiftLeft, BitVec.getLsbD_ushiftRight, BitVec.getLsbD_allOnes, hi]
    by_cases h56 : i < 56
    · simp [h56]
    · simp [h56, show 56 + (i - 56) = i by omega, show i - 56 < 64 by omega]
  have := w.isLt
  rw [h, BitVec.toNat_shiftLeft, BitVec.toNat_ushiftRight, Nat.shiftRight_eq_div_pow, Nat.shiftLeft_eq]
  omega

/-- An OP code selects its own row (R64). -/
@[simp] theorem opcodeOf_code (o : Opcode) : opcodeOf o.code = some o := by cases o <;> decide

/-- No OP value selects two rows (R64). -/
theorem opcode_codes_distinct : Opcode.rows.Pairwise (fun o q => o.code ≠ q.code) := by decide

/-- A row that an OP value selects has that value as its code (R64). -/
theorem code_of_opcodeOf {op : BitVec 4} {o : Opcode} (h : opcodeOf op = some o) : o.code = op := by
  have := List.find?_some h
  simpa using this

/-- A row's command belongs to the row's port (R63). -/
@[simp] theorem Opcode.instr_port (o : Opcode) (w : CmdWord) : (o.instr w).port = o.port := by cases o <;> rfl

/-- What a decoded word is: RSV is 0, OP selects the row, the port is the row's (R65). -/
theorem decode_ok {p : Port} {w : CmdWord} {i : Instr} (h : decode p w = .ok i) :
    cmdRsv w = 0 ∧ ∃ o, opcodeOf (cmdOp w) = some o ∧ o.port = p ∧ i = o.instr w := by
  unfold decode at h
  split at h
  · rename_i hr
    split at h
    · rename_i o ho
      split at h
      · rename_i hp
        cases h
        exact ⟨hr, o, ho, hp, rfl⟩
      · cases h
    · cases h
  · cases h

end Sys2Proof
end

