-- ==== Sys2Proof/Laws/Flags.lean ====
section
/-!
SUPPORT. The response word's bits and fields (30_encoding.md R66).
-/

namespace Sys2Proof.Machine

/-- A response word bit by bit: NSYM, FULL, COMPLETE, ERR, then zeros (R66). -/
theorem Response.getLsbD_pack (r : Response) (i : Nat) :
    r.pack.getLsbD i =
      if i < 16 then r.nsym.getLsbD i
      else if i = 16 then r.full
      else if i = 17 then r.complete
      else decide (i = 18) && r.err := by
  have h : r.pack.getLsbD i =
      ((0 : BitVec 13) ++ BitVec.ofBool r.err ++ BitVec.ofBool r.complete ++ BitVec.ofBool r.full ++ r.nsym
        : BitVec (13 + 1 + 1 + 1 + 16)).getLsbD i := rfl
  rw [h]
  simp only [BitVec.getLsbD_append, BitVec.getLsbD_ofBool]
  by_cases h1 : i < 16
  · simp [h1]
  by_cases h2 : i = 16
  · subst h2
    simp
  by_cases h3 : i = 17
  · subst h3
    simp
  by_cases h4 : i = 18
  · subst h4
    simp
  · simp [h1, h2, h3, h4, show ¬ i - 16 < 1 by omega, show ¬ i - 16 - 1 < 1 by omega,
      show ¬ i - 16 - 1 - 1 < 1 by omega]

/-- Every field is read back from the word it was packed into (R66). -/
@[simp] theorem Response.unpack_pack (r : Response) : Response.unpack r.pack = r := by
  have e : r.pack.extractLsb' 0 16 = r.nsym := by
    refine BitVec.eq_of_getLsbD_eq fun i hi => ?_
    rw [BitVec.getLsbD_extractLsb', Response.getLsbD_pack]
    simp [hi]
  simp only [Response.unpack, e, Response.getLsbD_pack]
  simp

/-- The value of a concatenation: the more significant part shifted past the other (00_scope.md R10). -/
theorem append_toNat {m n : Nat} (x : BitVec m) (y : BitVec n) : (x ++ y).toNat = x.toNat * 2 ^ n + y.toNat := by
  rw [BitVec.toNat_append, ← Nat.shiftLeft_add_eq_or_of_lt y.isLt, Nat.shiftLeft_eq]

/-- A response word as a number (R66). -/
theorem Response.pack_toNat (r : Response) :
    r.pack.toNat = r.err.toNat * 2 ^ 18 + r.complete.toNat * 2 ^ 17 + r.full.toNat * 2 ^ 16 + r.nsym.toNat := by
  have h : r.pack.toNat =
      ((0 : BitVec 13) ++ BitVec.ofBool r.err ++ BitVec.ofBool r.complete ++ BitVec.ofBool r.full ++ r.nsym
        : BitVec (13 + 1 + 1 + 1 + 16)).toNat := rfl
  rw [h]
  simp only [append_toNat, BitVec.toNat_ofBool]
  have h0 : (0 : BitVec 13).toNat = 0 := rfl
  omega

@[simp] theorem rspOk_pack : rspOk.pack = 0 := by decide

@[simp] theorem rspIllegal_pack : rspIllegal.pack = 0x00040000 := by decide

theorem rspFull_toNat {n : Nat} (h : n < 65536) : (rspFull n).pack.toNat = 2 ^ 16 + n := by
  rw [Response.pack_toNat]
  simp [rspFull]
  omega

theorem rspComplete_toNat {n : Nat} (h : n < 65536) : (rspComplete n).pack.toNat = 2 ^ 17 + n := by
  rw [Response.pack_toNat]
  simp [rspComplete]
  omega

end Sys2Proof.Machine
end

