-- ==== Sys2Proof/Laws/Memory.lean ====
section
/-!
SUPPORT. The buffer's cells: a read after a write, the canonical form kept, and equal contents are equal data.
-/

namespace Sys2Proof.Machine

@[simp] theorem Memory.get_nil (a : Nat) : Memory.get [] a = 0 := rfl

theorem Memory.get_cons (c : Host.Cell) (m : Memory) (a : Nat) :
    Memory.get (c :: m) a = if c.1 = a then c.2 else Memory.get m a := rfl

/-- An offset that no cell lists reads 0. -/
theorem Memory.get_eq_zero {m : Memory} {a : Nat} (h : ∀ c ∈ m, c.1 ≠ a) : Memory.get m a = 0 := by
  induction m with
  | nil => rfl
  | cons c m ih =>
    rw [Memory.get_cons, if_neg (h c (by simp))]
    exact ih fun d hd => h d (by simp [hd])

theorem Memory.get_cell_append (a : Nat) (v : Byte) (m : Memory) (b : Nat) (h : ∀ c ∈ m, c.1 ≠ a) :
    Memory.get (Memory.cell a v ++ m) b = if a = b then v else Memory.get m b := by
  unfold Memory.cell
  split
  · rename_i hv
    subst hv
    split
    · rename_i hab
      subst hab
      simpa using Memory.get_eq_zero h
    · simp
  · simp [Memory.get_cons]

/-- A read after a write: the byte written at that offset, every other offset as before. -/
theorem Memory.get_put {m : Memory} (h : Memory.wf m) (a : Nat) (v : Byte) (b : Nat) :
    Memory.get (Memory.put m a v) b = if a = b then v else Memory.get m b := by
  induction m with
  | nil =>
    have := Memory.get_cell_append a v [] b (by simp)
    simpa [Memory.put] using this
  | cons c m ih =>
    obtain ⟨hp, hz⟩ := h
    rw [List.pairwise_cons] at hp
    have hm : Memory.wf m := ⟨hp.2, fun d hd => hz d (by simp [hd])⟩
    simp only [Memory.put]
    split
    · rename_i hlt
      refine Memory.get_cell_append a v (c :: m) b fun d hd => ?_
      rcases List.mem_cons.1 hd with rfl | hd
      · omega
      · have := hp.1 d hd
        omega
    · split
      · rename_i heq
        rw [Memory.get_cell_append a v m b fun d hd => by have := hp.1 d hd; omega, Memory.get_cons]
        split
        · rfl
        · rw [if_neg (by omega)]
      · rw [Memory.get_cons, Memory.get_cons, ih hm]
        split
        · rename_i hcb
          rw [if_neg (by omega)]
        · rfl

theorem Memory.mem_put {m : Memory} {a : Nat} {v : Byte} {c : Host.Cell} (h : c ∈ Memory.put m a v) :
    (c = (a, v) ∧ v ≠ 0) ∨ c ∈ m := by
  have hcell : ∀ d, d ∈ Memory.cell a v → d = (a, v) ∧ v ≠ 0 := by
    intro d hd
    unfold Memory.cell at hd
    split at hd <;> simp_all
  induction m with
  | nil => exact .inl (hcell c h)
  | cons d m ih =>
    simp only [Memory.put] at h
    split at h
    · rcases List.mem_append.1 h with h | h
      · exact .inl (hcell c h)
      · exact .inr h
    · split at h
      · rcases List.mem_append.1 h with h | h
        · exact .inl (hcell c h)
        · exact .inr (by simp [h])
      · rcases List.mem_cons.1 h with h | h
        · exact .inr (by simp [h])
        · rcases ih h with h | h
          · exact .inl h
          · exact .inr (by simp [h])

/-- A write keeps the canonical form. -/
theorem Memory.put_wf {m : Memory} (h : Memory.wf m) (a : Nat) (v : Byte) : Memory.wf (Memory.put m a v) := by
  refine ⟨?_, fun c hc => ?_⟩
  · obtain ⟨hp, -⟩ := h
    have happ : ∀ n : Memory, n.Pairwise (fun c d => c.1 < d.1) → (∀ d ∈ n, a < d.1) →
        (Memory.cell a v ++ n).Pairwise (fun c d => c.1 < d.1) := by
      intro n hn ha
      unfold Memory.cell
      split
      · simpa using hn
      · simpa using ⟨fun i y hiy => ha (i, y) hiy, hn⟩
    induction m with
    | nil => simpa [Memory.put] using happ [] .nil (by simp)
    | cons c m ih =>
      rw [List.pairwise_cons] at hp
      simp only [Memory.put]
      split
      · rename_i hlt
        refine happ (c :: m) (List.pairwise_cons.2 hp) fun d hd => ?_
        rcases List.mem_cons.1 hd with rfl | hd
        · exact hlt
        · exact Nat.lt_trans hlt (hp.1 d hd)
      · split
        · rename_i heq
          exact happ m hp.2 fun d hd => by have := hp.1 d hd; omega
        · refine List.pairwise_cons.2 ⟨fun d hd => ?_, ih hp.2⟩
          rcases Memory.mem_put hd with ⟨rfl, -⟩ | hd
          · show c.1 < a
            omega
          · exact hp.1 d hd
  · rcases Memory.mem_put hc with ⟨rfl, hv⟩ | hc
    · exact hv
    · exact h.2 c hc

/-- A write below a bound leaves every cell below it. -/
theorem Memory.put_below {m : Memory} {n a : Nat} {v : Byte} (h : ∀ c ∈ m, c.1 < n) (ha : a < n) :
    ∀ c ∈ Memory.put m a v, c.1 < n := by
  intro c hc
  rcases Memory.mem_put hc with ⟨rfl, -⟩ | hc
  · exact ha
  · exact h c hc

/-- In canonical form, equal contents are equal data. -/
theorem Memory.eq_of_get {m n : Memory} (hm : Memory.wf m) (hn : Memory.wf n)
    (h : ∀ a, Memory.get m a = Memory.get n a) : m = n := by
  have hhead : ∀ (c : Host.Cell) (l : Memory), Memory.wf (c :: l) → ∀ a, a < c.1 → Memory.get (c :: l) a = 0 := by
    intro c l hl a ha
    refine Memory.get_eq_zero fun d hd => ?_
    rcases List.mem_cons.1 hd with rfl | hd
    · omega
    · have := (List.pairwise_cons.1 hl.1).1 d hd
      omega
  have htail : ∀ (c : Host.Cell) (l : Memory), Memory.wf (c :: l) → Memory.wf l ∧ Memory.get l c.1 = 0 := by
    intro c l hl
    have hp := List.pairwise_cons.1 hl.1
    refine ⟨⟨hp.2, fun d hd => hl.2 d (by simp [hd])⟩, Memory.get_eq_zero fun d hd => ?_⟩
    have := hp.1 d hd
    omega
  have hself : ∀ (c : Host.Cell) (l : Memory), Memory.get (c :: l) c.1 = c.2 := by
    intro c l
    simp [Memory.get_cons]
  induction m generalizing n with
  | nil =>
    cases n with
    | nil => rfl
    | cons d n => exact absurd ((hself d n).symm.trans (h d.1).symm) (hn.2 d (by simp))
  | cons c m ih =>
    cases n with
    | nil => exact absurd ((hself c m).symm.trans (h c.1)) (hm.2 c (by simp))
    | cons d n =>
      have hcd : c.1 = d.1 := by
        rcases Nat.lt_trichotomy c.1 d.1 with hlt | heq | hgt
        · exact absurd ((hself c m).symm.trans ((h c.1).trans (hhead d n hn c.1 hlt))) (hm.2 c (by simp))
        · exact heq
        · exact absurd ((hself d n).symm.trans ((h d.1).symm.trans (hhead c m hm d.1 hgt))) (hn.2 d (by simp))
      have hv : c.2 = d.2 := by
        have := h c.1
        rwa [hself, hcd, hself] at this
      have hmn : m = n := by
        refine ih (htail c m hm).1 (htail d n hn).1 fun a => ?_
        by_cases ha : c.1 = a
        · rw [← ha, (htail c m hm).2, hcd, (htail d n hn).2]
        · have := h a
          rwa [Memory.get_cons, Memory.get_cons, if_neg ha, if_neg (hcd ▸ ha)] at this
      rw [hmn, Prod.ext hcd hv]

end Sys2Proof.Machine
end

