-- ==== Sys2Proof/Laws/State.lean ====
section
/-!
SUPPORT. One lemma per field per update of the state, so that no proof unfolds a record update.
-/

namespace Sys2Proof.Machine

/-! ### State.setPix -/

@[simp] theorem State.setPix_cfg (s : State) (m : Memory) : (s.setPix m).cfg = s.cfg := rfl
@[simp] theorem State.setPix_pix (s : State) (m : Memory) : (s.setPix m).pix = m := rfl
@[simp] theorem State.setPix_brt (s : State) (m : Memory) : (s.setPix m).brt = s.brt := rfl
@[simp] theorem State.setPix_phase (s : State) (m : Memory) : (s.setPix m).phase = s.phase := rfl
@[simp] theorem State.setPix_byteIdx (s : State) (m : Memory) : (s.setPix m).byteIdx = s.byteIdx := rfl
@[simp] theorem State.setPix_bitIdx (s : State) (m : Memory) : (s.setPix m).bitIdx = s.bitIdx := rfl
@[simp] theorem State.setPix_busy (s : State) (m : Memory) : (s.setPix m).busy = s.busy := rfl
@[simp] theorem State.setPix_hostPort (s : State) (m : Memory) : (s.setPix m).hostPort = s.hostPort := rfl
@[simp] theorem State.setPix_pipePort (s : State) (m : Memory) : (s.setPix m).pipePort = s.pipePort := rfl
@[simp] theorem State.setPix_sched (s : State) (m : Memory) : (s.setPix m).sched = s.sched := rfl
@[simp] theorem State.setPix_out (s : State) (m : Memory) : (s.setPix m).out = s.out := rfl

/-! ### State.setBrt -/

@[simp] theorem State.setBrt_cfg (s : State) (v : Byte) : (s.setBrt v).cfg = s.cfg := rfl
@[simp] theorem State.setBrt_pix (s : State) (v : Byte) : (s.setBrt v).pix = s.pix := rfl
@[simp] theorem State.setBrt_brt (s : State) (v : Byte) : (s.setBrt v).brt = v := rfl
@[simp] theorem State.setBrt_phase (s : State) (v : Byte) : (s.setBrt v).phase = s.phase := rfl
@[simp] theorem State.setBrt_byteIdx (s : State) (v : Byte) : (s.setBrt v).byteIdx = s.byteIdx := rfl
@[simp] theorem State.setBrt_bitIdx (s : State) (v : Byte) : (s.setBrt v).bitIdx = s.bitIdx := rfl
@[simp] theorem State.setBrt_busy (s : State) (v : Byte) : (s.setBrt v).busy = s.busy := rfl
@[simp] theorem State.setBrt_hostPort (s : State) (v : Byte) : (s.setBrt v).hostPort = s.hostPort := rfl
@[simp] theorem State.setBrt_pipePort (s : State) (v : Byte) : (s.setBrt v).pipePort = s.pipePort := rfl
@[simp] theorem State.setBrt_sched (s : State) (v : Byte) : (s.setBrt v).sched = s.sched := rfl
@[simp] theorem State.setBrt_out (s : State) (v : Byte) : (s.setBrt v).out = s.out := rfl

/-! ### State.setPlace -/

@[simp] theorem State.setPlace_cfg (s : State) (j : BitVec 18) (l : BitVec 3) : (s.setPlace j l).cfg = s.cfg := rfl
@[simp] theorem State.setPlace_pix (s : State) (j : BitVec 18) (l : BitVec 3) : (s.setPlace j l).pix = s.pix := rfl
@[simp] theorem State.setPlace_brt (s : State) (j : BitVec 18) (l : BitVec 3) : (s.setPlace j l).brt = s.brt := rfl
@[simp] theorem State.setPlace_phase (s : State) (j : BitVec 18) (l : BitVec 3) : (s.setPlace j l).phase = s.phase := rfl
@[simp] theorem State.setPlace_byteIdx (s : State) (j : BitVec 18) (l : BitVec 3) : (s.setPlace j l).byteIdx = j := rfl
@[simp] theorem State.setPlace_bitIdx (s : State) (j : BitVec 18) (l : BitVec 3) : (s.setPlace j l).bitIdx = l := rfl
@[simp] theorem State.setPlace_busy (s : State) (j : BitVec 18) (l : BitVec 3) : (s.setPlace j l).busy = s.busy := rfl
@[simp] theorem State.setPlace_hostPort (s : State) (j : BitVec 18) (l : BitVec 3) : (s.setPlace j l).hostPort = s.hostPort := rfl
@[simp] theorem State.setPlace_pipePort (s : State) (j : BitVec 18) (l : BitVec 3) : (s.setPlace j l).pipePort = s.pipePort := rfl
@[simp] theorem State.setPlace_sched (s : State) (j : BitVec 18) (l : BitVec 3) : (s.setPlace j l).sched = s.sched := rfl
@[simp] theorem State.setPlace_out (s : State) (j : BitVec 18) (l : BitVec 3) : (s.setPlace j l).out = s.out := rfl

/-! ### State.setPhase -/

@[simp] theorem State.setPhase_cfg (s : State) (p : Phase) : (s.setPhase p).cfg = s.cfg := rfl
@[simp] theorem State.setPhase_pix (s : State) (p : Phase) : (s.setPhase p).pix = s.pix := rfl
@[simp] theorem State.setPhase_brt (s : State) (p : Phase) : (s.setPhase p).brt = s.brt := rfl
@[simp] theorem State.setPhase_phase (s : State) (p : Phase) : (s.setPhase p).phase = p := rfl
@[simp] theorem State.setPhase_byteIdx (s : State) (p : Phase) : (s.setPhase p).byteIdx = s.byteIdx := rfl
@[simp] theorem State.setPhase_bitIdx (s : State) (p : Phase) : (s.setPhase p).bitIdx = s.bitIdx := rfl
@[simp] theorem State.setPhase_busy (s : State) (p : Phase) : (s.setPhase p).busy = s.busy := rfl
@[simp] theorem State.setPhase_hostPort (s : State) (p : Phase) : (s.setPhase p).hostPort = s.hostPort := rfl
@[simp] theorem State.setPhase_pipePort (s : State) (p : Phase) : (s.setPhase p).pipePort = s.pipePort := rfl
@[simp] theorem State.setPhase_sched (s : State) (p : Phase) : (s.setPhase p).sched = s.sched := rfl
@[simp] theorem State.setPhase_out (s : State) (p : Phase) : (s.setPhase p).out = s.out := rfl

/-! ### State.setBusy -/

@[simp] theorem State.setBusy_cfg (s : State) (b : Bool) : (s.setBusy b).cfg = s.cfg := rfl
@[simp] theorem State.setBusy_pix (s : State) (b : Bool) : (s.setBusy b).pix = s.pix := rfl
@[simp] theorem State.setBusy_brt (s : State) (b : Bool) : (s.setBusy b).brt = s.brt := rfl
@[simp] theorem State.setBusy_phase (s : State) (b : Bool) : (s.setBusy b).phase = s.phase := rfl
@[simp] theorem State.setBusy_byteIdx (s : State) (b : Bool) : (s.setBusy b).byteIdx = s.byteIdx := rfl
@[simp] theorem State.setBusy_bitIdx (s : State) (b : Bool) : (s.setBusy b).bitIdx = s.bitIdx := rfl
@[simp] theorem State.setBusy_busy (s : State) (b : Bool) : (s.setBusy b).busy = b := rfl
@[simp] theorem State.setBusy_hostPort (s : State) (b : Bool) : (s.setBusy b).hostPort = s.hostPort := rfl
@[simp] theorem State.setBusy_pipePort (s : State) (b : Bool) : (s.setBusy b).pipePort = s.pipePort := rfl
@[simp] theorem State.setBusy_sched (s : State) (b : Bool) : (s.setBusy b).sched = s.sched := rfl
@[simp] theorem State.setBusy_out (s : State) (b : Bool) : (s.setBusy b).out = s.out := rfl

/-! ### State.emit -/

@[simp] theorem State.emit_cfg (s : State) (y : Symbol) : (s.emit y).cfg = s.cfg := rfl
@[simp] theorem State.emit_pix (s : State) (y : Symbol) : (s.emit y).pix = s.pix := rfl
@[simp] theorem State.emit_brt (s : State) (y : Symbol) : (s.emit y).brt = s.brt := rfl
@[simp] theorem State.emit_phase (s : State) (y : Symbol) : (s.emit y).phase = s.phase := rfl
@[simp] theorem State.emit_byteIdx (s : State) (y : Symbol) : (s.emit y).byteIdx = s.byteIdx := rfl
@[simp] theorem State.emit_bitIdx (s : State) (y : Symbol) : (s.emit y).bitIdx = s.bitIdx := rfl
@[simp] theorem State.emit_busy (s : State) (y : Symbol) : (s.emit y).busy = s.busy := rfl
@[simp] theorem State.emit_hostPort (s : State) (y : Symbol) : (s.emit y).hostPort = s.hostPort := rfl
@[simp] theorem State.emit_pipePort (s : State) (y : Symbol) : (s.emit y).pipePort = s.pipePort := rfl
@[simp] theorem State.emit_sched (s : State) (y : Symbol) : (s.emit y).sched = s.sched := rfl
@[simp] theorem State.emit_out (s : State) (y : Symbol) : (s.emit y).out = s.out ++ [.symbol y.pack] := rfl

/-! ### State.respond -/

@[simp] theorem State.respond_cfg (s : State) (p : Port) (r : Response) : (s.respond p r).cfg = s.cfg := rfl
@[simp] theorem State.respond_pix (s : State) (p : Port) (r : Response) : (s.respond p r).pix = s.pix := rfl
@[simp] theorem State.respond_brt (s : State) (p : Port) (r : Response) : (s.respond p r).brt = s.brt := rfl
@[simp] theorem State.respond_phase (s : State) (p : Port) (r : Response) : (s.respond p r).phase = s.phase := rfl
@[simp] theorem State.respond_byteIdx (s : State) (p : Port) (r : Response) : (s.respond p r).byteIdx = s.byteIdx := rfl
@[simp] theorem State.respond_bitIdx (s : State) (p : Port) (r : Response) : (s.respond p r).bitIdx = s.bitIdx := rfl
@[simp] theorem State.respond_busy (s : State) (p : Port) (r : Response) : (s.respond p r).busy = s.busy := rfl
@[simp] theorem State.respond_hostPort (s : State) (p : Port) (r : Response) : (s.respond p r).hostPort = s.hostPort := rfl
@[simp] theorem State.respond_pipePort (s : State) (p : Port) (r : Response) : (s.respond p r).pipePort = s.pipePort := rfl
@[simp] theorem State.respond_sched (s : State) (p : Port) (r : Response) : (s.respond p r).sched = s.sched := rfl
@[simp] theorem State.respond_out (s : State) (p : Port) (r : Response) : (s.respond p r).out = s.out ++ [.response p r.pack] := rfl

/-! ### State.endTurn -/

@[simp] theorem State.endTurn_cfg (s : State) : (s.endTurn).cfg = s.cfg := rfl
@[simp] theorem State.endTurn_pix (s : State) : (s.endTurn).pix = s.pix := rfl
@[simp] theorem State.endTurn_brt (s : State) : (s.endTurn).brt = s.brt := rfl
@[simp] theorem State.endTurn_phase (s : State) : (s.endTurn).phase = s.phase := rfl
@[simp] theorem State.endTurn_byteIdx (s : State) : (s.endTurn).byteIdx = s.byteIdx := rfl
@[simp] theorem State.endTurn_bitIdx (s : State) : (s.endTurn).bitIdx = s.bitIdx := rfl
@[simp] theorem State.endTurn_busy (s : State) : (s.endTurn).busy = s.busy := rfl
@[simp] theorem State.endTurn_hostPort (s : State) : (s.endTurn).hostPort = s.hostPort := rfl
@[simp] theorem State.endTurn_pipePort (s : State) : (s.endTurn).pipePort = s.pipePort := rfl
@[simp] theorem State.endTurn_sched (s : State) : (s.endTurn).sched = s.sched.tail := rfl
@[simp] theorem State.endTurn_out (s : State) : (s.endTurn).out = s.out := rfl

/-! ### State.hold -/

@[simp] theorem State.hold_cfg (s : State) : (s.hold).cfg = s.cfg := rfl
@[simp] theorem State.hold_pix (s : State) : (s.hold).pix = s.pix := rfl
@[simp] theorem State.hold_brt (s : State) : (s.hold).brt = s.brt := rfl
@[simp] theorem State.hold_phase (s : State) : (s.hold).phase = s.phase := rfl
@[simp] theorem State.hold_byteIdx (s : State) : (s.hold).byteIdx = s.byteIdx := rfl
@[simp] theorem State.hold_bitIdx (s : State) : (s.hold).bitIdx = s.bitIdx := rfl
@[simp] theorem State.hold_busy (s : State) : (s.hold).busy = s.busy := rfl
@[simp] theorem State.hold_hostPort (s : State) : (s.hold).hostPort = s.hostPort := rfl
@[simp] theorem State.hold_pipePort (s : State) : (s.hold).pipePort = s.pipePort := rfl
@[simp] theorem State.hold_sched (s : State) : (s.hold).sched = s.sched.tail := rfl
@[simp] theorem State.hold_out (s : State) : (s.hold).out = s.out := rfl

/-! ### State.advancePort -/

@[simp] theorem State.advancePort_cfg (s : State) (p : Port) : (s.advancePort p).cfg = s.cfg := by cases p <;> rfl
@[simp] theorem State.advancePort_pix (s : State) (p : Port) : (s.advancePort p).pix = s.pix := by cases p <;> rfl
@[simp] theorem State.advancePort_brt (s : State) (p : Port) : (s.advancePort p).brt = s.brt := by cases p <;> rfl
@[simp] theorem State.advancePort_phase (s : State) (p : Port) : (s.advancePort p).phase = s.phase := by cases p <;> rfl
@[simp] theorem State.advancePort_byteIdx (s : State) (p : Port) : (s.advancePort p).byteIdx = s.byteIdx := by cases p <;> rfl
@[simp] theorem State.advancePort_bitIdx (s : State) (p : Port) : (s.advancePort p).bitIdx = s.bitIdx := by cases p <;> rfl
@[simp] theorem State.advancePort_busy (s : State) (p : Port) : (s.advancePort p).busy = s.busy := by cases p <;> rfl
@[simp] theorem State.advancePort_sched (s : State) (p : Port) : (s.advancePort p).sched = s.sched := by cases p <;> rfl
@[simp] theorem State.advancePort_out (s : State) (p : Port) : (s.advancePort p).out = s.out := by cases p <;> rfl
@[simp] theorem State.advancePort_host_hostPort (s : State) : (s.advancePort .host).hostPort = s.hostPort.tail := rfl
@[simp] theorem State.advancePort_host_pipePort (s : State) : (s.advancePort .host).pipePort = s.pipePort := rfl
@[simp] theorem State.advancePort_pipeline_hostPort (s : State) : (s.advancePort .pipeline).hostPort = s.hostPort := rfl
@[simp] theorem State.advancePort_pipeline_pipePort (s : State) : (s.advancePort .pipeline).pipePort = s.pipePort.tail := rfl

/-! ### State.accept -/

@[simp] theorem State.accept_cfg (s : State) (p : Port) : (s.accept p).cfg = s.cfg := by cases p <;> rfl
@[simp] theorem State.accept_pix (s : State) (p : Port) : (s.accept p).pix = s.pix := by cases p <;> rfl
@[simp] theorem State.accept_brt (s : State) (p : Port) : (s.accept p).brt = s.brt := by cases p <;> rfl
@[simp] theorem State.accept_phase (s : State) (p : Port) : (s.accept p).phase = s.phase := by cases p <;> rfl
@[simp] theorem State.accept_byteIdx (s : State) (p : Port) : (s.accept p).byteIdx = s.byteIdx := by cases p <;> rfl
@[simp] theorem State.accept_bitIdx (s : State) (p : Port) : (s.accept p).bitIdx = s.bitIdx := by cases p <;> rfl
@[simp] theorem State.accept_busy (s : State) (p : Port) : (s.accept p).busy = s.busy := by cases p <;> rfl
@[simp] theorem State.accept_sched (s : State) (p : Port) : (s.accept p).sched = s.sched.tail := by cases p <;> rfl
@[simp] theorem State.accept_out (s : State) (p : Port) : (s.accept p).out = s.out := by cases p <;> rfl
@[simp] theorem State.accept_host_hostPort (s : State) : (s.accept .host).hostPort = s.hostPort.tail := rfl
@[simp] theorem State.accept_host_pipePort (s : State) : (s.accept .host).pipePort = s.pipePort := rfl
@[simp] theorem State.accept_pipeline_hostPort (s : State) : (s.accept .pipeline).hostPort = s.hostPort := rfl
@[simp] theorem State.accept_pipeline_pipePort (s : State) : (s.accept .pipeline).pipePort = s.pipePort.tail := rfl

/-! ### State.idleTurn -/

@[simp] theorem State.idleTurn_cfg (s : State) (p : Port) : (s.idleTurn p).cfg = s.cfg := by cases p <;> rfl
@[simp] theorem State.idleTurn_pix (s : State) (p : Port) : (s.idleTurn p).pix = s.pix := by cases p <;> rfl
@[simp] theorem State.idleTurn_brt (s : State) (p : Port) : (s.idleTurn p).brt = s.brt := by cases p <;> rfl
@[simp] theorem State.idleTurn_phase (s : State) (p : Port) : (s.idleTurn p).phase = s.phase := by cases p <;> rfl
@[simp] theorem State.idleTurn_byteIdx (s : State) (p : Port) : (s.idleTurn p).byteIdx = s.byteIdx := by cases p <;> rfl
@[simp] theorem State.idleTurn_bitIdx (s : State) (p : Port) : (s.idleTurn p).bitIdx = s.bitIdx := by cases p <;> rfl
@[simp] theorem State.idleTurn_busy (s : State) (p : Port) : (s.idleTurn p).busy = s.busy := by cases p <;> rfl
@[simp] theorem State.idleTurn_sched (s : State) (p : Port) : (s.idleTurn p).sched = s.sched.tail := by cases p <;> rfl
@[simp] theorem State.idleTurn_out (s : State) (p : Port) : (s.idleTurn p).out = s.out := by cases p <;> rfl
@[simp] theorem State.idleTurn_host_hostPort (s : State) : (s.idleTurn .host).hostPort = s.hostPort.tail := rfl
@[simp] theorem State.idleTurn_host_pipePort (s : State) : (s.idleTurn .host).pipePort = s.pipePort := rfl
@[simp] theorem State.idleTurn_pipeline_hostPort (s : State) : (s.idleTurn .pipeline).hostPort = s.hostPort := rfl
@[simp] theorem State.idleTurn_pipeline_pipePort (s : State) : (s.idleTurn .pipeline).pipePort = s.pipePort.tail := rfl

/-! ### restartSession -/

@[simp] theorem restartSession_cfg (s : State) : (restartSession s).cfg = s.cfg := rfl
@[simp] theorem restartSession_pix (s : State) : (restartSession s).pix = s.pix := rfl
@[simp] theorem restartSession_brt (s : State) : (restartSession s).brt = s.brt := rfl
@[simp] theorem restartSession_phase (s : State) : (restartSession s).phase = .data := rfl
@[simp] theorem restartSession_byteIdx (s : State) : (restartSession s).byteIdx = 0 := rfl
@[simp] theorem restartSession_bitIdx (s : State) : (restartSession s).bitIdx = 0 := rfl
@[simp] theorem restartSession_busy (s : State) : (restartSession s).busy = s.busy := rfl
@[simp] theorem restartSession_hostPort (s : State) : (restartSession s).hostPort = s.hostPort := rfl
@[simp] theorem restartSession_pipePort (s : State) : (restartSession s).pipePort = s.pipePort := rfl
@[simp] theorem restartSession_sched (s : State) : (restartSession s).sched = s.sched := rfl
@[simp] theorem restartSession_out (s : State) : (restartSession s).out = s.out := rfl

/-! ### applyReset -/

@[simp] theorem applyReset_cfg (s : State) : (applyReset s).cfg = s.cfg := rfl
@[simp] theorem applyReset_pix (s : State) : (applyReset s).pix = [] := rfl
@[simp] theorem applyReset_brt (s : State) : (applyReset s).brt = s.cfg.brtReset := rfl
@[simp] theorem applyReset_phase (s : State) : (applyReset s).phase = .data := rfl
@[simp] theorem applyReset_byteIdx (s : State) : (applyReset s).byteIdx = 0 := rfl
@[simp] theorem applyReset_bitIdx (s : State) : (applyReset s).bitIdx = 0 := rfl
@[simp] theorem applyReset_busy (s : State) : (applyReset s).busy = false := rfl
@[simp] theorem applyReset_hostPort (s : State) : (applyReset s).hostPort = s.hostPort.tail := rfl
@[simp] theorem applyReset_pipePort (s : State) : (applyReset s).pipePort = s.pipePort.tail := rfl
@[simp] theorem applyReset_sched (s : State) : (applyReset s).sched = s.sched.tail := rfl
@[simp] theorem applyReset_out (s : State) : (applyReset s).out = s.out := rfl

/-! ### State.offer -/

@[simp] theorem State.offer_cfg (s : State) (p : Port) (w : CmdWord) : (s.offer p w).cfg = s.cfg := by
  cases p <;> rfl
@[simp] theorem State.offer_pix (s : State) (p : Port) (w : CmdWord) : (s.offer p w).pix = s.pix := by
  cases p <;> rfl
@[simp] theorem State.offer_brt (s : State) (p : Port) (w : CmdWord) : (s.offer p w).brt = s.brt := by
  cases p <;> rfl
@[simp] theorem State.offer_phase (s : State) (p : Port) (w : CmdWord) : (s.offer p w).phase = s.phase := by
  cases p <;> rfl
@[simp] theorem State.offer_byteIdx (s : State) (p : Port) (w : CmdWord) : (s.offer p w).byteIdx = s.byteIdx := by
  cases p <;> rfl
@[simp] theorem State.offer_bitIdx (s : State) (p : Port) (w : CmdWord) : (s.offer p w).bitIdx = s.bitIdx := by
  cases p <;> rfl
@[simp] theorem State.offer_busy (s : State) (p : Port) (w : CmdWord) : (s.offer p w).busy = s.busy := by
  cases p <;> rfl
@[simp] theorem State.offer_host_hostPort (s : State) (w : CmdWord) :
    (s.offer .host w).hostPort = some w :: s.hostPort := rfl
@[simp] theorem State.offer_pipeline_hostPort (s : State) (w : CmdWord) :
    (s.offer .pipeline w).hostPort = s.hostPort := rfl
@[simp] theorem State.offer_host_pipePort (s : State) (w : CmdWord) :
    (s.offer .host w).pipePort = s.pipePort := rfl
@[simp] theorem State.offer_pipeline_pipePort (s : State) (w : CmdWord) :
    (s.offer .pipeline w).pipePort = some w :: s.pipePort := rfl
@[simp] theorem State.offer_sched (s : State) (p : Port) (w : CmdWord) : (s.offer p w).sched = s.sched := by
  cases p <;> rfl
@[simp] theorem State.offer_out (s : State) (p : Port) (w : CmdWord) : (s.offer p w).out = s.out := by
  cases p <;> rfl

/-! ### State.due -/

@[simp] theorem State.due_cfg (s : State) (p : Port) : (s.due p).cfg = s.cfg := rfl
@[simp] theorem State.due_pix (s : State) (p : Port) : (s.due p).pix = s.pix := rfl
@[simp] theorem State.due_brt (s : State) (p : Port) : (s.due p).brt = s.brt := rfl
@[simp] theorem State.due_phase (s : State) (p : Port) : (s.due p).phase = s.phase := rfl
@[simp] theorem State.due_byteIdx (s : State) (p : Port) : (s.due p).byteIdx = s.byteIdx := rfl
@[simp] theorem State.due_bitIdx (s : State) (p : Port) : (s.due p).bitIdx = s.bitIdx := rfl
@[simp] theorem State.due_busy (s : State) (p : Port) : (s.due p).busy = s.busy := rfl
@[simp] theorem State.due_hostPort (s : State) (p : Port) : (s.due p).hostPort = s.hostPort := rfl
@[simp] theorem State.due_pipePort (s : State) (p : Port) : (s.due p).pipePort = s.pipePort := rfl
@[simp] theorem State.due_sched (s : State) (p : Port) : (s.due p).sched = Port.agent p :: s.sched := rfl
@[simp] theorem State.due_out (s : State) (p : Port) : (s.due p).out = s.out := rfl

end Sys2Proof.Machine
end

