-- ==== Sys2Proof/Laws/Ops.lean ====
section
/-!
SUPPORT. What each shared operation can do, said once.
-/

namespace Sys2Proof.Machine

variable {α β : Type}

@[simp] theorem andThen_next (a : α) (f : α → Host.Outcome β Fault Refusal) : andThen (.next a) f = f a := rfl

@[simp] theorem andThen_fault (r : Fault) (f : α → Host.Outcome β Fault Refusal) :
    andThen (.fault r) f = .fault r := rfl

@[simp] theorem andThen_refused (r : Refusal) (f : α → Host.Outcome β Fault Refusal) :
    andThen (.refused r) f = .refused r := rfl

theorem andThen_eq_next {o : Host.Outcome α Fault Refusal} {f : α → Host.Outcome β Fault Refusal} {b : β} :
    andThen o f = .next b ↔ ∃ a, o = .next a ∧ f a = .next b := by
  cases o <;> simp

theorem memRead_next {s : State} {a : Nat} (h : a < s.cfg.len) : memRead s a = .next (Memory.get s.pix a) :=
  if_pos h

theorem memWrite_next {s : State} {a : Nat} {v : Byte} (h : a < s.cfg.len) :
    memWrite s a v = .next (s.setPix (Memory.put s.pix a v)) :=
  if_pos h

/-! ### The output history -/

@[simp] theorem symbolsOf_nil : symbolsOf [] = [] := rfl

@[simp] theorem symbolsOf_symbol (w : SymWord) (l : List Event) : symbolsOf (.symbol w :: l) = w :: symbolsOf l := rfl

@[simp] theorem symbolsOf_response (p : Port) (w : RspWord) (l : List Event) :
    symbolsOf (.response p w :: l) = symbolsOf l := rfl

@[simp] theorem symbolsOf_append (l m : List Event) : symbolsOf (l ++ m) = symbolsOf l ++ symbolsOf m :=
  List.filterMap_append

@[simp] theorem symbolsOf_map_symbol (ws : List SymWord) : symbolsOf (ws.map .symbol) = ws := by
  induction ws with
  | nil => rfl
  | cons w ws ih => rw [List.map_cons, symbolsOf_symbol, ih]

@[simp] theorem symbolsOf_take_map_symbol (n : Nat) (ws : List SymWord) :
    symbolsOf ((ws.map .symbol).take n) = ws.take n := by
  rw [← List.map_take, symbolsOf_map_symbol]

@[simp] theorem responsesOf_nil (p : Port) : responsesOf p [] = [] := rfl

@[simp] theorem responsesOf_symbol (p : Port) (w : SymWord) (l : List Event) :
    responsesOf p (.symbol w :: l) = responsesOf p l := rfl

@[simp] theorem responsesOf_response (p q : Port) (w : RspWord) (l : List Event) :
    responsesOf p (.response q w :: l) = if q = p then w :: responsesOf p l else responsesOf p l := by
  cases p <;> cases q <;> rfl

@[simp] theorem responsesOf_append (p : Port) (l m : List Event) :
    responsesOf p (l ++ m) = responsesOf p l ++ responsesOf p m :=
  List.filterMap_append

@[simp] theorem responsesOf_map_symbol (p : Port) (ws : List SymWord) : responsesOf p (ws.map .symbol) = [] := by
  induction ws with
  | nil => rfl
  | cons w ws ih => rw [List.map_cons, responsesOf_symbol, ih]

@[simp] theorem responsesOf_take_map_symbol (p : Port) (n : Nat) (ws : List SymWord) :
    responsesOf p ((ws.map .symbol).take n) = [] := by
  rw [← List.map_take, responsesOf_map_symbol]

end Sys2Proof.Machine
end

