-- ==== Sys2Proof/Laws/Symbols.lean ====
section
/-!
SUPPORT. The symbol word's fields and the frame function's symbols, one by one.
-/

namespace Sys2Proof.Machine

/-- A symbol word bit by bit: dur0, level0, dur1, level1 from the least significant end (R68). -/
theorem Symbol.getLsbD_pack (s : Symbol) (i : Nat) :
    s.pack.getLsbD i =
      if i < 15 then s.dur0.getLsbD i
      else if i = 15 then s.level0
      else if i < 31 then s.dur1.getLsbD (i - 16)
      else decide (i = 31) && s.level1 := by
  have h : s.pack.getLsbD i =
      (BitVec.ofBool s.level1 ++ s.dur1 ++ BitVec.ofBool s.level0 ++ s.dur0 : BitVec (1 + 15 + 1 + 15)).getLsbD i := rfl
  rw [h]
  simp only [BitVec.getLsbD_append, BitVec.getLsbD_ofBool]
  by_cases h1 : i < 15
  · simp [h1]
  by_cases h2 : i = 15
  · subst h2
    simp
  by_cases h3 : i < 31
  · have e : i - 15 - 1 = i - 16 := by omega
    simp only [h1, h2, h3, e, if_false, if_true, show ¬ i - 15 < 1 by omega, show i - 16 < 15 by omega]
  by_cases h4 : i = 31
  · subst h4
    simp
  · simp [h1, h2, h3, h4, show ¬ i - 15 < 1 by omega, show ¬ i - 15 - 1 < 15 by omega,
      show ¬ i - 15 - 1 - 15 = 0 by omega]

/-- Every field is read back from the word it was packed into (R68). -/
@[simp] theorem Symbol.unpack_pack (s : Symbol) : Symbol.unpack s.pack = s := by
  have e2 : s.pack.extractLsb' 0 15 = s.dur0 := by
    refine BitVec.eq_of_getLsbD_eq fun i hi => ?_
    rw [BitVec.getLsbD_extractLsb', Symbol.getLsbD_pack]
    simp [hi]
  have e3 : s.pack.extractLsb' 16 15 = s.dur1 := by
    refine BitVec.eq_of_getLsbD_eq fun i hi => ?_
    rw [BitVec.getLsbD_extractLsb', Symbol.getLsbD_pack]
    simp [hi, show ¬ 16 + i < 15 by omega, show ¬ 16 + i = 15 by omega, show 16 + i < 31 by omega]
  simp only [Symbol.unpack, e2, e3, Symbol.getLsbD_pack]
  simp

@[simp] theorem byteBits_length (v : Byte) : (byteBits v).length = 8 := rfl

@[simp] theorem byteSyms_length (k : Nat) (v : Byte) : (byteSyms k v).length = 8 := rfl

theorem flatMap_byteSyms_length (k : Nat) (bs : List Byte) : (bs.flatMap (byteSyms k)).length = 8 * bs.length := by
  induction bs with
  | nil => rfl
  | cons b bs ih =>
    rw [List.flatMap_cons, List.length_append, ih, byteSyms_length, List.length_cons]
    omega

theorem frame_length (k : Nat) (bs : List Byte) : (frame k bs).length = 8 * bs.length + 1 := by
  rw [frame, List.length_append, flatMap_byteSyms_length, List.length_singleton]

theorem byteSyms_get? (k : Nat) (v : Byte) {t : Nat} (h : t < 8) :
    (byteSyms k v)[t]? = some (dataSym k (v.getLsbD (7 - t))).pack := by
  simp [byteSyms, byteBits, List.getElem?_range h]

theorem flatMap_byteSyms_get? (k : Nat) (bs : List Byte) {t : Nat} (h : t < 8 * bs.length) :
    (bs.flatMap (byteSyms k))[t]? = some (dataSym k ((bs.getD (t / 8) 0).getLsbD (7 - t % 8))).pack := by
  induction bs generalizing t with
  | nil => simp at h
  | cons b bs ih =>
    rw [List.flatMap_cons]
    by_cases ht : t < 8
    · rw [List.getElem?_append_left (by simpa using ht), byteSyms_get? k b ht]
      simp [show t / 8 = 0 by omega, show t % 8 = t by omega]
    · rw [List.getElem?_append_right (by simp; omega), byteSyms_length, ih (by simp at h; omega)]
      rw [show t / 8 = (t - 8) / 8 + 1 by omega, show t % 8 = (t - 8) % 8 by omega]
      simp

end Sys2Proof.Machine
end

