-- ==== Sys2Proof/Laws/Encoder.lean ====
section
/-!
SUPPORT. What the sub-encoders can do (42_protocol_encoder.md R121 to R124), and the buffer's frame symbol by symbol.
-/

namespace Sys2Proof.Machine

/-- The word of the data symbol at session position `q` (20_memory.md R44). -/
def State.dataWord (s : State) (q : Nat) : SymWord :=
  (dataSym s.cfg.k ((Memory.get s.pix (q / 8)).getLsbD (7 - q % 8))).pack

@[simp] theorem State.bytes_length (s : State) : s.bytes.length = s.cfg.len := by simp [State.bytes]

/-- A data symbol of the frame, by its position (R130). -/
theorem frame_get?_data (s : State) {q : Nat} (h : q < 8 * s.cfg.len) :
    (frame s.cfg.k s.bytes)[q]? = some (s.dataWord q) := by
  rw [frame, List.getElem?_append_left (by rw [flatMap_byteSyms_length]; simpa using h),
    flatMap_byteSyms_get? _ _ (by simpa using h)]
  have hq : q / 8 < s.cfg.len := by omega
  simp [State.dataWord, State.bytes, hq]

/-- The data symbols of positions `q .. q + n − 1` are that stretch of the frame (R130). -/
theorem map_dataWord (s : State) {q n : Nat} (h : q + n ≤ 8 * s.cfg.len) :
    (List.range' q n).map s.dataWord = ((frame s.cfg.k s.bytes).drop q).take n := by
  refine List.ext_getElem? fun j => ?_
  by_cases hj : j < n
  · rw [List.getElem?_take_of_lt hj, List.getElem?_drop, frame_get?_data s (by omega)]
    simp [hj]
  · rw [List.getElem?_eq_none (by simpa using hj), List.getElem?_eq_none]
    rw [List.length_take]
    omega

/-- What is left of the frame once every data symbol is out (R130). -/
theorem frame_drop_data (s : State) : (frame s.cfg.k s.bytes).drop (8 * s.cfg.len) = [(resetSym s.cfg.k).pack] := by
  rw [frame]
  exact List.drop_left' (by rw [flatMap_byteSyms_length]; simp)

theorem State.pos_lt_iff (s : State) : s.pos < 8 * s.cfg.len ↔ s.byteIdx.toNat < s.cfg.len := by
  have := s.bitIdx.isLt
  unfold State.pos
  omega

/-- The BPE's loop emits the data symbols of its positions and changes nothing else (R122). -/
theorem emitBits_eq {n q : Nat} {s : State} (h : q + n ≤ 8 * s.cfg.len) :
    emitBits n q s = .next { s with out := s.out ++ ((List.range' q n).map s.dataWord).map .symbol } := by
  induction n generalizing q s with
  | zero => simp [emitBits]
  | succ n ih =>
    have hq : q / 8 < s.cfg.len := by omega
    unfold emitBits
    rw [memRead_next hq, andThen_next, ih (by simpa using (by omega : q + 1 + n ≤ 8 * s.cfg.len))]
    simp [List.range'_succ, State.emit, State.dataWord]

/-- BPE `encode`, every case: it yields with its place kept, or it finishes with its place at 0 (R122). -/
theorem bpeEncode_eq {space : Nat} {s : State} (h : s.byteIdx.toNat < s.cfg.len) :
    bpeEncode space s =
      if space < 8 * s.cfg.len - s.pos then
        .next
          { state :=
              { s with
                out := s.out ++ ((List.range' s.pos space).map s.dataWord).map .symbol
                byteIdx := BitVec.ofNat 18 ((s.pos + space) / 8), bitIdx := BitVec.ofNat 3 ((s.pos + space) % 8) }
            count := space, status := .full }
      else
        .next
          { state :=
              { s with
                out := s.out ++ ((List.range' s.pos (8 * s.cfg.len - s.pos)).map s.dataWord).map .symbol
                byteIdx := 0, bitIdx := 0 }
            count := 8 * s.cfg.len - s.pos, status := .complete } := by
  have hp : s.pos < 8 * s.cfg.len := s.pos_lt_iff.2 h
  unfold bpeEncode
  rw [if_pos hp, emitBits_eq (by omega), andThen_next]
  split
  · rename_i hlt
    rw [Nat.min_eq_left (by omega)]
    rfl
  · rename_i hge
    rw [Nat.min_eq_right (by omega)]
    rfl

/-- A place outside the buffer, which R28 excludes, faults at the byte to be read next. -/
theorem bpeEncode_fault {space : Nat} {s : State} (h : ¬ s.byteIdx.toNat < s.cfg.len) :
    bpeEncode space s = .fault (.noSuchOffset s.byteIdx.toNat) := by
  have hp : ¬ s.pos < 8 * s.cfg.len := fun hp => h (s.pos_lt_iff.1 hp)
  unfold bpeEncode
  rw [if_neg hp]

/-- FPE `encode` with a slot, and without one (R124). -/
theorem fpeEncode_slot {space : Nat} (h : 1 ≤ space) (s : State) :
    fpeEncode space s = { state := s.emit (resetSym s.cfg.k), count := 1, status := .complete } := if_pos h

theorem fpeEncode_noSlot (s : State) : fpeEncode 0 s = { state := s, count := 0, status := .full } := rfl

/-- The second half of ENCODE ends the session if a slot is left, and yields otherwise (R126). -/
theorem encodeReset_slot {space n : Nat} (h : n < space) (s : State) :
    encodeReset space n s =
      { s with
        phase := .data, busy := false
        out := s.out ++ [.symbol (resetSym s.cfg.k).pack] ++ [.response .pipeline (rspComplete (n + 1)).pack] } := by
  unfold encodeReset
  rw [fpeEncode_slot (by omega)]
  rfl

theorem encodeReset_noSlot {space n : Nat} (h : space ≤ n) (s : State) :
    encodeReset space n s = { s with out := s.out ++ [.response .pipeline (rspFull n).pack] } := by
  unfold encodeReset
  rw [Nat.sub_eq_zero_of_le h, fpeEncode_noSlot]
  rfl

/-- The words of the data symbols of a call that emits `n` of them. -/
def State.dataWords (s : State) (n : Nat) : List SymWord := (List.range' s.pos n).map s.dataWord

/-- The first half of ENCODE yields inside the data (R126). -/
theorem encodeData_yield {space : Nat} {s : State} (hb : s.byteIdx.toNat < s.cfg.len)
    (h : space < 8 * s.cfg.len - s.pos) :
    encodeData space s = .next
      { s with
        byteIdx := BitVec.ofNat 18 ((s.pos + space) / 8), bitIdx := BitVec.ofNat 3 ((s.pos + space) % 8)
        out := s.out ++ (s.dataWords space).map .symbol ++ [.response .pipeline (rspFull space).pack] } := by
  rw [encodeData, bpeEncode_eq hb, if_pos h, andThen_next]
  rfl

/-- The first half of ENCODE ends the data in the last slot and yields in phase Reset (R126). -/
theorem encodeData_toReset {space : Nat} {s : State} (hb : s.byteIdx.toNat < s.cfg.len)
    (h : space = 8 * s.cfg.len - s.pos) :
    encodeData space s = .next
      { s with
        phase := .reset, byteIdx := 0, bitIdx := 0
        out := s.out ++ (s.dataWords space).map .symbol ++ [.response .pipeline (rspFull space).pack] } := by
  rw [encodeData, bpeEncode_eq hb, if_neg (by omega), andThen_next]
  subst h
  simp only [encodeReset_noSlot (Nat.le_refl _)]
  rfl

/-- The first half of ENCODE ends the data with a slot left, and the second half ends the session (R126). -/
theorem encodeData_complete {space : Nat} {s : State} (hb : s.byteIdx.toNat < s.cfg.len)
    (h : 8 * s.cfg.len - s.pos < space) :
    encodeData space s = .next
      { s with
        phase := .data, byteIdx := 0, bitIdx := 0, busy := false
        out := s.out ++ (s.dataWords (8 * s.cfg.len - s.pos)).map .symbol ++ [.symbol (resetSym s.cfg.k).pack] ++
          [.response .pipeline (rspComplete (8 * s.cfg.len - s.pos + 1)).pack] } := by
  rw [encodeData, bpeEncode_eq hb, if_neg (by omega), andThen_next]
  simp only [encodeReset_slot h]
  rfl

end Sys2Proof.Machine
end

