-- ==== Sys2Proof/Laws/PerInstr.lean ====
section
/-!
SUPPORT. A family of statements about every command as syntax: bit 63 of its word names its port (30_encoding.md R64).
-/

namespace Sys2Proof.Laws.PortBit

/-- `OP[3]` (command bit 63) is 0 for every host command and 1 for every pipeline command (R64). -/
def Statement (i : Instr) : Prop := (encode i).getLsbD 63 = decide (i.port = .pipeline)

theorem nop : Statement .nop := getLsbD_cmdPack _ _ _ _ _ _ 63

theorem set (idx : Half) (r g b : Byte) : Statement (.set idx r g b) := getLsbD_cmdPack _ _ _ _ _ _ 63

theorem fill (idx cnt : Half) (r g b : Byte) : Statement (.fill idx cnt r g b) := getLsbD_cmdPack _ _ _ _ _ _ 63

theorem setbrt (lvl : Byte) : Statement (.setbrt lvl) := getLsbD_cmdPack _ _ _ _ _ _ 63

theorem flush : Statement .flush := getLsbD_cmdPack _ _ _ _ _ _ 63

theorem encode (space : Half) : Statement (.encode space) := getLsbD_cmdPack _ _ _ _ _ _ 63

theorem encrst : Statement .encrst := getLsbD_cmdPack _ _ _ _ _ _ 63

end Sys2Proof.Laws.PortBit
end

