-- ==== Sys2Proof/Laws/PixelBuffer.lean ====
section
/-!
SUPPORT. What the pixel writes of SET and FILL can do (41_pixel_buffer.md R101 to R106).
-/

namespace Sys2Proof.Machine

/-- The scaled byte at position `j` of an LED: green, red, blue (R102). -/
def wireByte (c : Colour) (brt : Byte) (j : Nat) : Byte :=
  if j = 0 then scale c.g brt else if j = 1 then scale c.r brt else scale c.b brt

/-- The clamped index is an LED of the strip (R101). -/
theorem clampIdx_lt {c : Config} (h : 1 ≤ c.numLeds) (index : Half) : clampIdx c index < c.numLeds := by
  unfold clampIdx
  omega

theorem clampIdx_le_fillEnd {c : Config} (h : 1 ≤ c.numLeds) (index count : Half) :
    clampIdx c index ≤ fillEnd c index count := by
  have := clampIdx_lt h index
  unfold fillEnd
  omega

/-- Every LED that FILL's loop writes is in `i .. e − 1`, so on the strip (R107 (a)). -/
theorem mem_fillTargets {c : Config} (h : 1 ≤ c.numLeds) {index count : Half} {led : Nat}
    (hl : led ∈ fillTargets c index count) :
    clampIdx c index ≤ led ∧ led < fillEnd c index count ∧ led < c.numLeds := by
  have h1 := clampIdx_lt h index
  have h2 : fillEnd c index count ≤ c.numLeds := by unfold fillEnd; omega
  have h3 := clampIdx_le_fillEnd h index count
  unfold fillTargets fillCount at hl
  split at hl
  · rw [List.mem_replicate] at hl
    omega
  · rw [List.mem_range'_1] at hl
    omega

/-- One pixel write: the LED's three bytes, and no other byte (R102). -/
theorem writePixel_spec {s : State} {led : Nat} (c : Colour) (hl : led < s.cfg.numLeds) (hb : s.BufferInv) :
    ∃ m, writePixel led c s = .next (s.setPix m) ∧ (s.setPix m).BufferInv ∧
      ∀ a, Memory.get m a = if a / 3 = led then wireByte c s.brt (a % 3) else Memory.get s.pix a := by
  obtain ⟨hwf, hbd⟩ := hb
  have hlen : s.cfg.len = 3 * s.cfg.numLeds := rfl
  have h0 : 3 * led < s.cfg.len := by omega
  have h1 : 3 * led + 1 < s.cfg.len := by omega
  have h2 : 3 * led + 2 < s.cfg.len := by omega
  have w0 := Memory.put_wf hwf (3 * led) (scale c.g s.brt)
  have w1 := Memory.put_wf w0 (3 * led + 1) (scale c.r s.brt)
  have w2 := Memory.put_wf w1 (3 * led + 2) (scale c.b s.brt)
  refine ⟨_, ?_, ⟨w2, Memory.put_below (Memory.put_below (Memory.put_below hbd h0) h1) h2⟩, fun a => ?_⟩
  · unfold writePixel ledOffset
    rw [memWrite_next h0, andThen_next, memWrite_next (by simpa using h1), andThen_next,
      memWrite_next (by simpa using h2)]
    rfl
  · rw [Memory.get_put w1, Memory.get_put w0, Memory.get_put hwf]
    unfold wireByte
    by_cases ha : a / 3 = led
    · rw [if_pos ha]
      have hcases : a % 3 = 0 ∨ a % 3 = 1 ∨ a % 3 = 2 := by omega
      rcases hcases with h | h | h
      · rw [if_neg (by omega), if_neg (by omega), if_pos (by omega), if_pos h]
      · rw [if_neg (by omega), if_pos (by omega), if_neg (by omega), if_pos h]
      · rw [if_pos (by omega), if_neg (by omega), if_neg (by omega)]
    · rw [if_neg ha, if_neg (by omega), if_neg (by omega), if_neg (by omega)]

/-- A list of pixel writes of one colour: the bytes of the LEDs in the list, and no other byte (R105, R106). -/
theorem writePixels_spec {s : State} {leds : List Nat} (c : Colour) (hl : ∀ led ∈ leds, led < s.cfg.numLeds)
    (hb : s.BufferInv) :
    ∃ m, writePixels leds c s = .next (s.setPix m) ∧ (s.setPix m).BufferInv ∧
      ∀ a, Memory.get m a = if a / 3 ∈ leds then wireByte c s.brt (a % 3) else Memory.get s.pix a := by
  induction leds generalizing s with
  | nil => exact ⟨s.pix, rfl, hb, fun a => by simp⟩
  | cons led leds ih =>
    obtain ⟨m, hm, hbm, hg⟩ := writePixel_spec c (hl led (by simp)) hb
    obtain ⟨n, hn, hbn, hgn⟩ := ih (s := s.setPix m) (fun l h => hl l (by simp [h])) hbm
    refine ⟨n, ?_, hbn, fun a => ?_⟩
    · show andThen (writePixel led c s) (writePixels leds c) = _
      rw [hm]
      exact hn
    · rw [hgn, State.setPix_pix, hg, State.setPix_brt]
      by_cases h1 : a / 3 ∈ leds
      · simp [h1]
      · by_cases h2 : a / 3 = led <;> simp [h1, h2]

end Sys2Proof.Machine
end

