-- ==== Sys2Proof/Laws/Step.lean ====
section
/-!
SUPPORT. What one step can do, said once (00_scope.md R8, 20_memory.md R48, 43_driver_control.md R156).
-/

namespace Sys2Proof.Machine

/-- A turn of the agent behind a port, every case: nothing presented, held, answered ERR, or performed. -/
theorem portTurn_cases {p : Port} {s t : State} (h : portTurn p s = .next t) :
    (s.presented p = none ∧ t = s.idleTurn p) ∨
    (∃ w, s.presented p = some w ∧ s.ready p = false ∧ t = s.hold) ∨
    (∃ w e, s.presented p = some w ∧ s.ready p = true ∧ decode p w = .error e ∧ t = answerIllegal p (s.accept p)) ∨
    (∃ w i, s.presented p = some w ∧ s.ready p = true ∧ decode p w = .ok i ∧ exec i (s.accept p) = .next t) := by
  unfold portTurn at h
  split at h
  · rename_i hp
    cases h
    exact .inl ⟨hp, rfl⟩
  · rename_i w hw
    split at h
    · rename_i hr
      unfold perform at h
      split at h
      · rename_i i hi
        exact .inr (.inr (.inr ⟨w, i, hw, hr, hi, h⟩))
      · rename_i e he
        cases h
        exact .inr (.inr (.inl ⟨w, e, hw, hr, he, rfl⟩))
    · rename_i hr
      cases h
      exact .inr (.inl ⟨w, hw, by simpa using hr, rfl⟩)

/-- A step, every case: no agent due, a reset, or a turn of the agent behind a port. -/
theorem step_cases {s t : State} (h : step s = .next t) :
    s.cfg.WellFormed ∧
    ((s.sched = [] ∧ t = s) ∨
      (∃ r, s.sched = .reset :: r ∧ t = applyReset s) ∨
      (∃ p r, s.sched = Port.agent p :: r ∧ portTurn p s = .next t)) := by
  unfold step at h
  split at h
  · rename_i hw
    refine ⟨hw, ?_⟩
    split at h
    · rename_i hs
      cases h
      exact .inl ⟨hs, rfl⟩
    · rename_i r hs
      exact .inr (.inr ⟨.host, r, hs, h⟩)
    · rename_i r hs
      exact .inr (.inr ⟨.pipeline, r, hs, h⟩)
    · rename_i r hs
      cases h
      exact .inr (.inl ⟨r, hs, rfl⟩)
  · cases h

/-- The turn that a step gives to the agent behind a port. -/
theorem step_portTurn {s : State} {p : Port} {r : List Agent} (hw : s.cfg.WellFormed)
    (hs : s.sched = Port.agent p :: r) : step s = portTurn p s := by
  unfold step
  rw [if_pos hw, hs]
  cases p <;> rfl

/-- A run of one step or more goes on from the state its first step leaves. -/
theorem run_succ (M : Host.Core) {s t : M.State} (h : M.step s = .next t) (n : Nat) : M.run (n + 1) s = M.run n t := by
  simp only [Host.Core.run, h]

theorem core_run_succ {s t : State} (h : step s = .next t) (n : Nat) :
    Sys2Proof.core.run (n + 1) s = Sys2Proof.core.run n t :=
  run_succ Sys2Proof.core h n

end Sys2Proof.Machine
end

