-- ==== Sys2Proof/Laws/Procedures.lean ====
section
/-!
SUPPORT. What a turn and the procedure FLUSHW can do (30_encoding.md R77, 43_driver_control.md R152, R156).
-/

namespace Sys2Proof.Machine

/-- A turn is the turn of the agent behind the port. -/
theorem turn_eq {s : State} (p : Port) (hw : s.cfg.WellFormed) : turn p s = portTurn p (s.due p) :=
  step_portTurn hw rfl

/-- A turn that is held is spent, and nothing else. -/
@[simp] theorem State.hold_due (s : State) (p : Port) : (s.due p).hold = s := rfl

/-- A turn of the Host at a word the port holds leaves the state as it was. -/
theorem turn_held {s : State} {w : CmdWord} {q : List (Option CmdWord)} (hw : s.cfg.WellFormed) (hb : s.busy = true)
    (hp : s.hostPort = some w :: q) : turn .host s = .next s := by
  rw [turn_eq .host hw]
  simp [portTurn, State.presented, State.portInput, State.ready, hb, hp]

/-- A turn of the Host at a word the port accepts performs the word. -/
theorem turn_accepted {s : State} {w : CmdWord} {q : List (Option CmdWord)} (hw : s.cfg.WellFormed)
    (hb : s.busy = false) (hp : s.hostPort = some w :: q) :
    turn .host s = perform .host w { s with hostPort := q } := by
  rw [turn_eq .host hw]
  simp [portTurn, State.presented, State.portInput, State.ready, State.accept, State.advancePort, State.endTurn,
    State.due, hb, hp]

/-- FLUSHW with its FLUSH held does nothing, and its FLUSH stays on the port. -/
theorem flushwOffered_held {s : State} {w : CmdWord} {q : List (Option CmdWord)} (limit : Nat) (space : Half)
    (hw : s.cfg.WellFormed) (hb : s.busy = true) (hp : s.hostPort = some w :: q) :
    flushwOffered limit space s = .next s := by
  simp [flushwOffered, turn_held hw hb hp, State.ready, hb]

/-- FLUSHW with its FLUSH accepted is FLUSH, then ENCODE until complete. -/
theorem flushwOffered_accepted {s : State} {q : List (Option CmdWord)} (limit : Nat) (space : Half)
    (hw : s.cfg.WellFormed) (hb : s.busy = false) (hp : s.hostPort = some (encode .flush) :: q) :
    flushwOffered limit space s =
      andThen (exec .flush { s with hostPort := q }) (encodeUntilComplete limit space) := by
  have hd : decode .host (encode .flush) = .ok .flush := by decide
  simp [flushwOffered, turn_accepted hw hb hp, State.ready, hb, perform, hd]

end Sys2Proof.Machine
end

