-- ==== Sys2Proof/Tests/Slice0.lean ====
section
/-!
SUPPORT. Small tests, their expected values taken from the tables of 95_test_vectors.md (section named at each), and for
every statement with hypotheses a witness that meets them.
-/

open Sys2Proof Sys2Proof.Machine

namespace Sys2Proof.Tests

/-! ### Small states -/

/-- A parameter set of `n` LEDs at 10 MHz. -/
def cfgOf (n : Nat) (mode : FillMode) : Config :=
  { numLeds := n, brightnessCfg := 0, resHz := 10000000, fillMode := mode }

/-- A state of `n` LEDs, brightness 255, idle, with these non-zero cells. -/
def idle (n : Nat) (pix : Memory) : State := { State.resetOf (cfgOf n .single) with pix := pix }

/-- The buffer of section 2.8: `3C A5 01`. -/
def pix28 : Memory := [(0, 0x3C), (1, 0xA5), (2, 0x01)]

/-- Section 2.8's state with a session in progress. -/
def busyAt (p : Phase) (byteIdx : BitVec 18) (bitIdx : BitVec 3) : State :=
  { idle 1 pix28 with phase := p, byteIdx := byteIdx, bitIdx := bitIdx, busy := true }

/-- A field of the next state, none where there is none. -/
def after {α : Type} (o : Host.Outcome State Fault Refusal) (f : State → α) : Option α :=
  match o with
  | .next t => some (f t)
  | .fault _ => none
  | .refused _ => none

/-- The session state as the tables write it. -/
def session (s : State) : Phase × Nat × Nat × Bool := (s.phase, s.byteIdx.toNat, s.bitIdx.toNat, s.busy)

/-- What the symbols carry, read by pulse width (R73): a bit each, none for the reset symbol. -/
def bitsOut (s : State) : List (Option Bool) :=
  (symbolsOf s.out).map fun w =>
    match readSym s.cfg.k w with
    | some (.bit v) => some v
    | _ => none

/-- A string of section 2.8: `0`, `1`, or `R` for the reset symbol. -/
def bitString (cs : List Char) : List (Option Bool) :=
  cs.map fun c => if c = '0' then some false else if c = '1' then some true else none

/-! ### What WellFormed refuses (00_scope.md R6, R7; 30_encoding.md R76) -/

theorem test_wf_smallest : (cfgOf 1 .single).WellFormed := by decide
theorem test_wf_largest : Config.WellFormed ⟨65535, 255, 1310000000, .range⟩ := by decide
theorem test_wf_no_leds : ¬ (cfgOf 0 .single).WellFormed := by decide
theorem test_wf_too_many_leds : ¬ (cfgOf 65536 .single).WellFormed := by decide
theorem test_wf_rate_no_multiple : ¬ Config.WellFormed ⟨1, 0, 10000001, .single⟩ := by decide
theorem test_wf_rate_zero : ¬ Config.WellFormed ⟨1, 0, 0, .single⟩ := by decide
theorem test_wf_rate_too_high : ¬ Config.WellFormed ⟨1, 0, 1320000000, .single⟩ := by decide

theorem test_line_set_idx : (AsmLine.set 65536 0 0 0).wellFormed = false := by decide
theorem test_line_set_r : (AsmLine.set 0 256 0 0).wellFormed = false := by decide
theorem test_line_set_g : (AsmLine.set 0 0 256 0).wellFormed = false := by decide
theorem test_line_set_b : (AsmLine.set 0 0 0 256).wellFormed = false := by decide
theorem test_line_fill_idx : (AsmLine.fill 65536 0 0 0 0).wellFormed = false := by decide
theorem test_line_fill_cnt : (AsmLine.fill 0 65536 0 0 0).wellFormed = false := by decide
theorem test_line_fill_r : (AsmLine.fill 0 0 256 0 0).wellFormed = false := by decide
theorem test_line_fill_g : (AsmLine.fill 0 0 0 256 0).wellFormed = false := by decide
theorem test_line_fill_b : (AsmLine.fill 0 0 0 0 256).wellFormed = false := by decide
theorem test_line_setbrt : (AsmLine.setbrt 256).wellFormed = false := by decide
theorem test_line_encode : (AsmLine.encode 65536).wellFormed = false := by decide
theorem test_line_setc_idx : (AsmLine.setc 65536 0).wellFormed = false := by decide
theorem test_line_setc_rgb : (AsmLine.setc 0 0x1000000).wellFormed = false := by decide
theorem test_line_fillc_idx : (AsmLine.fillc 65536 0 0).wellFormed = false := by decide
theorem test_line_fillc_cnt : (AsmLine.fillc 0 65536 0).wellFormed = false := by decide
theorem test_line_fillc_rgb : (AsmLine.fillc 0 0 0x1000000).wellFormed = false := by decide
theorem test_line_flushw : (AsmLine.flushw 65536).wellFormed = false := by decide
theorem test_line_top : (AsmLine.fill 65535 65535 255 255 255).wellFormed = true := by decide

/-! ### Decoding (95_test_vectors.md section 2.2) -/

theorem test_decode_nop : decode .host 0x0000FFFFFFFFFFFF = .ok .nop := by decide
theorem test_decode_set : decode .host 0x1000050000FF0080 = .ok (.set 5 0xFF 0x00 0x80) := by decide
theorem test_decode_set_ignores_cnt : decode .host 0x1000010012345678 = .ok (.set 1 0x34 0x56 0x78) := by decide
theorem test_decode_fill : decode .host 0x2000010002102030 = .ok (.fill 1 2 0x10 0x20 0x30) := by decide
theorem test_decode_fill_top : decode .host 0x2000FFFFFFFF0000 = .ok (.fill 255 65535 0xFF 0 0) := by decide
theorem test_decode_setbrt : decode .host 0x3000FFFFFFFFFF80 = .ok (.setbrt 128) := by decide
theorem test_decode_flush : decode .host 0x4000123456789ABC = .ok .flush := by decide
theorem test_decode_encode : decode .pipeline 0x8000ABCD00031234 = .ok (.encode 52480) := by decide
theorem test_decode_encrst : decode .pipeline 0x9000000000000001 = .ok .encrst := by decide

theorem test_illegal_rsv : decode .host 0x4F00000000000000 = .error .reservedBits := by decide
theorem test_illegal_rsv_first : decode .pipeline 0xFFFFFFFFFFFFFFFF = .error .reservedBits := by decide
theorem test_illegal_op5 : decode .host 0x5000000000000000 = .error .reservedOpcode := by decide
theorem test_illegal_op7 : decode .host 0x7000000000000000 = .error .reservedOpcode := by decide
theorem test_illegal_opA : decode .pipeline 0xA000000000000000 = .error .reservedOpcode := by decide
theorem test_illegal_opF : decode .pipeline 0xF000000000000000 = .error .reservedOpcode := by decide
theorem test_illegal_encode_on_host : decode .host 0x800000000A000000 = .error .wrongPort := by decide
theorem test_illegal_encrst_on_host : decode .host 0x9000000000000000 = .error .wrongPort := by decide
theorem test_illegal_flush_on_pipeline : decode .pipeline 0x4000000000000000 = .error .wrongPort := by decide
theorem test_illegal_nop_on_pipeline : decode .pipeline 0x0000000000000000 = .error .wrongPort := by decide

theorem test_table_word : decodeTableWord 64 0x8000ABCD00031234 = some (.encode 52480) := by decide
theorem test_table_word_illegal : decodeTableWord 64 0x5000000000000000 = none := by decide
theorem test_fetch_word :
    after (step (State.reset.withFetchWord 64 0x3000000000000007)) (fun t => (t.brt, t.out)) =
      some (7, [.response .host 0]) := by decide
theorem test_fetch_word_while_busy :
    after (step ((busyAt .data 1 2).withFetchWord 64 0x3000000000000007)) (fun t => (t.brt, t.busy)) =
      some (7, false) := by decide

/-! ### Assembling (95_test_vectors.md section 2.2; 30_encoding.md R76, R77) -/

theorem test_encode_fill : encode (.fill 3 10 1 2 3) = 0x200003000A010203 := by decide
theorem test_encode_encode : encode (.encode 65535) = 0x800000FFFF000000 := by decide
theorem test_text_set :
    assembleText ["SET 5, 0xFF, 0x00, 0x80 ; the last LED".toList] = some [.word .host 0x1000050000FF0080] := by decide
theorem test_text_setc : assembleText ["SETC 0, #A53C01".toList] = some [.word .host 0x1000000000A53C01] := by decide
theorem test_text_fill : assembleText ["FILL 0, 65535, 0x40, 0x50, 0x60".toList] =
    some [.word .host 0x200000FFFF405060] := by decide
theorem test_text_ports :
    assembleText ["H: FLUSH".toList, "; nothing".toList, "P: ENCODE 100".toList, "ENCRST".toList] =
      some
        [.word .host 0x4000000000000000, .word .pipeline 0x8000000064000000, .word .pipeline 0x9000000000000000] := by
  decide
theorem test_text_flushw : assembleText ["FLUSHW 25".toList] = some [.flushw 25] := by decide
theorem test_text_flushw_out_of_range : assembleText ["FLUSHW 65536".toList] = none := by decide
theorem test_text_out_of_range : assembleText ["SET 65536, 0, 0, 0".toList] = none := by decide
theorem test_text_no_mnemonic : assembleText ["LOAD 1".toList] = none := by decide

/-! ### The scaler (95_test_vectors.md section 2.1) -/

theorem test_scale_exact_multiple : scale 16 16 = 2 := by decide
theorem test_scale_below_multiple : scale 17 15 = 1 := by decide
theorem test_scale_half_of_half : scale 128 128 = 65 := by decide
theorem test_scale_top : scale 255 255 = 255 := by decide
theorem test_scale_zero : scale 0 200 = 0 := by decide

/-! ### Responses and symbols (95_test_vectors.md sections 2.3 and 2.4) -/

theorem test_rsp_full : (rspFull 10).pack = 0x0001000A := by decide
theorem test_rsp_complete_largest : (rspComplete 65521).pack = 0x0002FFF1 := by decide
theorem test_rsp_illegal : rspIllegal.pack = 0x00040000 := by decide
theorem test_sym_20mhz : (bit0Sym 2).pack = 0x00128006 ∧ (resetSym 2).pack = 0x01F401F4 := by decide
theorem test_sym_80mhz : (bit0Sym 8).pack = 0x00488018 ∧ (bit1Sym 8).pack = 0x00188048 := by decide
theorem test_sym_top : (bit1Sym 131).pack = 0x0189849B ∧ (resetSym 131).pack = 0x7FEE7FEE := by decide
theorem test_sym_byte_A5 : byteSyms 1 0xA5 =
    [0x00038009, 0x00098003, 0x00038009, 0x00098003, 0x00098003, 0x00038009, 0x00098003, 0x00038009] := by decide
theorem test_read_reset : readSym 1 0x00FA00FA = some (.latch 500) := by decide

/-! ### SET and FILL (95_test_vectors.md sections 2.5 and 2.6) -/

theorem test_set_order : after (exec (.set 0 0x12 0x34 0x56) (idle 2 [])) State.bytes =
    some [0x34, 0x12, 0x56, 0, 0, 0] := by decide
theorem test_set_clamped : after (exec (.set 65535 0xFF 0x00 0x80) (idle 2 [])) State.bytes =
    some [0, 0, 0, 0x00, 0xFF, 0x80] := by decide
theorem test_fill_single : after (exec (.fill 1 2 0x10 0x20 0x30) (idle 4 [])) State.bytes =
    some [0, 0, 0, 0x20, 0x10, 0x30, 0, 0, 0, 0, 0, 0] := by decide
theorem test_fill_range :
    after (exec (.fill 1 2 0x10 0x20 0x30) { idle 4 [] with cfg := cfgOf 4 .range }) State.bytes =
      some [0, 0, 0, 0x20, 0x10, 0x30, 0x20, 0x10, 0x30, 0, 0, 0] := by decide

/-! ### Control (95_test_vectors.md section 2.7) -/

theorem test_nop : after (exec .nop (idle 1 pix28)) (fun t => (t.pix, t.brt, t.out)) =
    some (pix28, 255, [.response .host 0]) := by decide
theorem test_setbrt_zero : after (exec (.setbrt 0) (idle 1 pix28)) (fun t => (t.pix, t.brt)) =
    some (pix28, 0) := by decide
theorem test_flush : after (exec .flush (idle 1 pix28)) (fun t => (session t, t.pix, t.out)) =
    some ((.data, 0, 0, true), pix28, [.response .host 0]) := by decide

/-! ### ENCODE and ENCRST (95_test_vectors.md section 2.8, one theorem a group of rows) -/

theorem test_encode_mid_byte_yield :
    after (exec (.encode 10) (busyAt .data 1 2)) (fun t => (bitsOut t, t.rsp .pipeline, session t)) =
      some (bitString "1001010000".toList, some 0x0001000A, (.data, 2, 4, true)) := by decide
theorem test_encode_last_rows :
    after (exec (.encode 4) (busyAt .data 2 4)) (fun t => (bitsOut t, t.rsp .pipeline, session t)) =
      some (bitString "0001".toList, some 0x00010004, (.reset, 0, 0, true)) ∧
    after (exec (.encode 65535) (busyAt .data 2 4)) (fun t => (bitsOut t, t.rsp .pipeline, session t)) =
      some (bitString "0001R".toList, some 0x00020005, (.data, 0, 0, false)) ∧
    after (exec (.encode 9) (busyAt .reset 0 0)) (fun t => (bitsOut t, t.rsp .pipeline, session t)) =
      some (bitString "R".toList, some 0x00020001, (.data, 0, 0, false)) :=
  ⟨by decide, by decide, by decide⟩
theorem test_encrst : after (exec .encrst (busyAt .data 1 2)) (fun t => (session t, t.pix, t.out)) =
    some ((.data, 0, 0, false), pix28, [.response .pipeline 0]) := by decide

/-! ### FLUSHW (30_encoding.md R77; the symbols and the response are the `ENCODE 25` row of section 2.8) -/

theorem test_flushw : after (flushw 1 25 (idle 1 pix28)) (fun t => (bitsOut t, t.rsp .pipeline, session t)) =
    some (bitString "001111001010010100000001R".toList, some 0x00020019, (.data, 0, 0, false)) := by decide
theorem test_flushw_held : after (flushw 1 25 (busyAt .data 1 2)) (fun t => (session t, t.hostPort, t.out)) =
    some ((.data, 1, 2, true), [some 0x4000000000000000], []) := by decide

/-- A FLUSHW line that the Host comes to during a flush waits, and goes on when an ENCRST line lifts the hold. -/
theorem test_run_flushw_waits :
    (runText 1 ["FLUSHW 25".toList, "ENCRST".toList] (busyAt .data 1 2)).map (fun o => after o bitsOut) =
      some (some (bitString "001111001010010100000001R".toList)) := by decide

/-! ### One step: hold, ILLEGAL, reset (95_test_vectors.md sections 2.9 and 2.10) -/

theorem test_hold : after (step ((busyAt .data 0 0).present .host 0x1000000000010203))
    (fun t => (t.pix, t.hostPort, t.out)) = some (pix28, [some 0x1000000000010203], []) := by decide
theorem test_illegal_step : after (step ((idle 1 pix28).present .host 0x5000000000000000))
    (fun t => (t.pix, t.hostPort, t.out)) = some (pix28, [], [.response .host 0x00040000]) := by decide
theorem test_reset :
    after (step { busyAt .data 1 2 with cfg := ⟨1, 1, 10000000, .single⟩, brt := 77, sched := [.reset] })
      (fun t => (t.bytes, t.brt, session t)) = some ([0, 0, 0], 1, (.data, 0, 0, false)) := by decide
theorem test_fault_outside :
    memRead (idle 1 pix28) 3 = .fault (.noSuchOffset 3) ∧ memWrite (idle 1 pix28) 3 1 = .fault (.noSuchOffset 3) :=
  ⟨rfl, rfl⟩

/-! ### Witnesses: each statement's hypotheses are met, clause by clause -/

/-- Largest and smallest parameter sets, a session at each of its phases, a dark and a lit buffer. -/
theorem witness_Inv :
    (idle 1 []).Inv ∧ (idle 1 pix28).Inv ∧ (busyAt .data 0 0).Inv ∧ (busyAt .data 2 7).Inv ∧
    (busyAt .reset 0 0).Inv ∧ State.Inv (State.resetOf ⟨65535, 255, 1310000000, .range⟩) :=
  ⟨by decide, by decide, by decide, by decide, by decide, by decide⟩

theorem witness_ScaleIsZeroExactlyAtZero : 0 < (1 : Byte).toNat ∧ 0 < (255 : Byte).toNat := by decide
theorem witness_ScaleIsIdentityAtFullAndMonotone :
    (0 : Byte).toNat ≤ (0 : Byte).toNat ∧ (0 : Byte).toNat ≤ (255 : Byte).toNat ∧
    ((16 : Byte) ≠ 0 ∧ (16 : Byte).toNat * (16 : Byte).toNat % 256 = 0) ∧
    ((255 : Byte) ≠ 0 ∧ (255 : Byte).toNat * (255 : Byte).toNat % 256 ≠ 0) := by decide
/-- A word of every row, reserved OP values of both ends, on a port each. -/
theorem witness_OpcodeMapSelectsByMask :
    ((0x5000000000000000 : CmdWord).toNat / 2 ^ 60 ∈ [5, 6, 7, 10, 11, 12, 13, 14, 15]) ∧
    ((0xFFFFFFFFFFFFFFFF : CmdWord).toNat / 2 ^ 60 ∈ [5, 6, 7, 10, 11, 12, 13, 14, 15]) ∧
    decode .host 0 = .ok .nop ∧ decode .pipeline 0x9000000000000000 = .ok .encrst := by decide
theorem witness_OperandsAreTheirFields :
    decode .host 0x1000FFFF00FFFFFF = .ok (.set 0x00FF 0xFF 0xFF 0xFF) ∧
    decode .host 0x10FFFFFFFFFFFFFF = .ok (.set 0xFFFF 0xFF 0xFF 0xFF) ∧
    decode .host 0x20FFFFFFFFFFFFFF = .ok (.fill 0xFFFF 0xFFFF 0xFF 0xFF 0xFF) ∧
    decode .host 0x30FFFFFFFFFFFFFF = .ok (.setbrt 0xFF) ∧
    decode .pipeline 0x80FFFFFFFFFFFFFF = .ok (.encode 0xFFFF) := by decide
theorem witness_IgnoredFieldsAreDropped :
    decode .host 0x00FFFFFFFFFFFFFF = .ok .nop ∧ decode .host 0x10FFFFFFFFFFFFFF = .ok (.set 0xFFFF 0xFF 0xFF 0xFF) ∧
    decode .host 0x20FFFFFFFFFFFFFF = .ok (.fill 0xFFFF 0xFFFF 0xFF 0xFF 0xFF) ∧
    decode .host 0x30FFFFFFFFFFFFFF = .ok (.setbrt 0xFF) ∧ decode .host 0x40FFFFFFFFFFFFFF = .ok .flush ∧
    decode .pipeline 0x80FFFFFFFFFFFFFF = .ok (.encode 0xFFFF) ∧
    decode .pipeline 0x90FFFFFFFFFFFFFF = .ok .encrst := by decide
theorem witness_DecodeEncodeAgree : Port.pipeline ≠ Instr.nop.port ∧ Port.host ≠ Instr.encrst.port := by decide
theorem witness_PseudoInstructionsExpand : 0 < 256 ∧ 255 < 256 ∧ 16777216 ≤ 16777216 := by decide

/-- A word and its agent's turn, on an idle and on a busy machine. -/
theorem witness_IllegalWordsAreAnsweredErr :
    decode .host 0x4100000000000000 = .error .reservedBits ∧ decode .host 0x5000000000000000 = .error .reservedOpcode ∧
    decode .host 0x9000000000000000 = .error .wrongPort ∧ decode .pipeline 0x4000000000000000 = .error .wrongPort ∧
    ((idle 1 []).present .host 0x5000000000000000).cfg.WellFormed ∧
    ((idle 1 []).present .host 0x5000000000000000).sched = .host :: [] ∧
    ((idle 1 []).present .host 0x5000000000000000).hostPort = some 0x5000000000000000 :: [] ∧
    ((idle 1 []).present .host 0x5000000000000000).busy = false ∧
    ((busyAt .data 0 0).present .host 0x5000000000000000).busy = true ∧
    ((busyAt .data 0 0).present .pipeline 0x4000000000000000).sched = .pipeline :: [] ∧
    ((busyAt .data 0 0).present .pipeline 0x4000000000000000).pipePort = some 0x4000000000000000 :: [] := by decide

theorem witness_StepRunsTheDecodedInstruction :
    decode .host 0x4000000000000000 = .ok .flush ∧ decode .pipeline 0x8000000000000000 = .ok (.encode 0) ∧
    ((idle 1 []).present .host 0x4000000000000000).cfg.WellFormed ∧
    ((idle 1 []).present .host 0x4000000000000000).sched = .host :: [] ∧
    ((idle 1 []).present .host 0x4000000000000000).hostPort = some 0x4000000000000000 :: [] ∧
    ((idle 1 []).present .host 0x4000000000000000).busy = false ∧
    ((busyAt .data 0 0).present .pipeline 0x8000000000000000).sched = .pipeline :: [] ∧
    ((busyAt .data 0 0).present .pipeline 0x8000000000000000).pipePort = some 0x8000000000000000 :: [] := by decide

/-- Held; accepted; and the three ways BUSY becomes 0: reset, ENCRST, the completing ENCODE. -/
theorem witness_HostWordIsHeldWhileBusy :
    (((busyAt .data 0 0).present .host 0).cfg.WellFormed ∧ ((busyAt .data 0 0).present .host 0).busy = true) ∧
    (((idle 1 []).present .host 0).cfg.WellFormed ∧ ((idle 1 []).present .host 0).busy = false) ∧
    (∃ t, step { busyAt .data 0 0 with sched := [.reset] } = .next t ∧ t.busy = false) ∧
    (∃ t, step ((busyAt .data 0 0).present .pipeline 0x9000000000000000) = .next t ∧ t.busy = false) ∧
    (∃ t, step ((busyAt .data 0 0).present .pipeline 0x8000000019000000) = .next t ∧ t.busy = false) :=
  ⟨by decide, by decide, ⟨_, rfl, rfl⟩, ⟨_, rfl, rfl⟩, ⟨_, rfl, rfl⟩⟩

/-- A flush whose Pipeline gives no space, with a host command held. -/
def starved : State :=
  { busyAt .reset 0 0 with
    hostPort := [some 0x4000000000000000], pipePort := [none, some 0x8000000000000000]
    sched := [.host, .pipeline, .pipeline, .host] }

theorem witness_AFlushWithoutSpaceHangs :
    starved.Inv ∧ starved.busy = true ∧ starved.hostPort = some 0x4000000000000000 :: [] ∧
    (∀ a ∈ starved.sched, a ≠ .reset) ∧
    (∀ x ∈ starved.pipePort, x = none ∨ ∃ v, x = some v ∧ decode .pipeline v = .ok (.encode 0)) := by
  refine ⟨by decide, rfl, rfl, by decide, fun x hx => ?_⟩
  rcases List.mem_cons.1 hx with rfl | hx
  · exact .inl rfl
  · exact .inr ⟨0x8000000000000000, by simpa using hx, by decide⟩

/-- A step with BUSY = 0, and one that leaves BUSY = 1. -/
theorem witness_ResetValues :
    ((idle 1 []).present .host 0x4000000000000000).busy = false ∧
    (∃ t, step ((idle 1 []).present .pipeline 0x8000000001000000) = .next t ∧ t.busy = false) ∧
    (∃ t, step ((idle 1 []).present .host 0x4000000000000000) = .next t ∧ t.busy = true) :=
  ⟨by decide, ⟨_, rfl, rfl⟩, ⟨_, rfl, rfl⟩⟩
theorem witness_ResetStepFromAnyState :
    State.cfg { busyAt .data 1 2 with sched := [.reset, .host] } = cfgOf 1 .single ∧
    (cfgOf 1 .single).WellFormed ∧ State.sched { busyAt .data 1 2 with sched := [.reset, .host] } = .reset :: [.host] := by
  decide
theorem witness_ParametersAreFixed :
    (∃ t, step ((idle 1 []).present .host 0) = .next t) ∧ ¬ (idle 0 []).cfg.WellFormed ∧
    ¬ Config.WellFormed ⟨1, 0, 1320000000, .single⟩ := by
  exact ⟨⟨_, rfl⟩, by decide, by decide⟩
theorem witness_InvariantHoldsAtReset :
    (cfgOf 1 .single).WellFormed ∧ Config.WellFormed ⟨65535, 255, 1310000000, .range⟩ := by decide

/-- A step of every kind from a state that meets the invariant: none due, idle turn, hold, ILLEGAL, a command, reset. -/
theorem witness_EveryStepKeepsTheInvariant :
    (busyAt .data 2 7).Inv ∧ (∃ t, step (busyAt .data 2 7) = .next t) ∧
    (∃ t, step { busyAt .data 2 7 with sched := [.host] } = .next t) ∧
    (∃ t, step ((busyAt .data 2 7).present .host 0) = .next t) ∧
    (∃ t, step ((busyAt .data 2 7).present .pipeline 0) = .next t) ∧
    (∃ t, step ((busyAt .data 2 7).present .pipeline 0x8000000001000000) = .next t) ∧
    (∃ t, step { busyAt .data 2 7 with sched := [.reset] } = .next t) :=
  ⟨by decide, ⟨_, rfl⟩, ⟨_, rfl⟩, ⟨_, rfl⟩, ⟨_, rfl⟩, ⟨_, rfl⟩, ⟨_, rfl⟩⟩
theorem witness_NothingTraps : (idle 1 []).Inv ∧ (busyAt .reset 0 0).Inv := by decide

theorem witness_StateIsWrittenOnlyByItsWriters :
    (∃ t, exec (.set 0 1 2 3) (idle 1 []) = .next t ∧ t.pix ≠ (idle 1 []).pix) ∧
    (∃ t, exec (.fill 0 1 1 2 3) (idle 1 []) = .next t ∧ t.pix ≠ (idle 1 []).pix) ∧
    (∃ t, exec (.setbrt 0) (idle 1 []) = .next t ∧ t.brt ≠ (idle 1 []).brt) ∧
    (∃ t, exec .flush (idle 1 []) = .next t ∧ session t ≠ session (idle 1 [])) ∧
    (∃ t, exec (.encode 1) (busyAt .data 0 0) = .next t ∧ session t ≠ session (busyAt .data 0 0)) ∧
    (∃ t, exec .encrst (busyAt .data 0 0) = .next t ∧ session t ≠ session (busyAt .data 0 0)) :=
  ⟨⟨_, rfl, by decide⟩, ⟨_, rfl, by decide⟩, ⟨_, rfl, by decide⟩, ⟨_, rfl, by decide⟩, ⟨_, rfl, by decide⟩,
    ⟨_, rfl, by decide⟩⟩
theorem witness_BufferIsFrozenWhileBusy :
    ((busyAt .data 0 0).present .host 0x1000000000010203).busy = true ∧
    (∃ t, step ((busyAt .data 0 0).present .host 0x1000000000010203) = .next t) ∧
    (∀ r, ((busyAt .data 0 0).present .host 0x1000000000010203).sched ≠ .reset :: r) :=
  ⟨by decide, ⟨_, rfl⟩, fun r h => nomatch h⟩
theorem witness_BrightnessIsInvisibleToTheEncoder :
    (∃ t, exec .nop (idle 1 []) = .next t) ∧ (∃ t, exec .flush (idle 1 []) = .next t) ∧
    (∃ t, exec .encrst (busyAt .data 0 0) = .next t) ∧ (∃ t, exec (.encode 25) (busyAt .data 0 0) = .next t) :=
  ⟨⟨_, rfl⟩, ⟨_, rfl⟩, ⟨_, rfl⟩, ⟨_, rfl⟩⟩
theorem witness_OutputsAreSymbolsThenOneResponse :
    (∃ t, step ((busyAt .data 0 0).present .pipeline 0x8000000019000000) = .next t) ∧
    (∃ t, step ((idle 1 []).present .host 0x5000000000000000) = .next t) ∧ (∃ t, step (idle 1 []) = .next t) :=
  ⟨⟨_, rfl⟩, ⟨_, rfl⟩, ⟨_, rfl⟩⟩

/-- For NopChangesNothing, SetbrtStoresTheLevel, FlushStartsASession, EncodeIsIdleWithoutAFlush. -/
theorem witness_idle_commands : (idle 1 pix28).busy = false := by decide
theorem witness_EncrstAbandonsTheSession :
    ((idle 1 pix28).SessionInv ∧ (idle 1 pix28).busy = false) ∧
    (∃ t u, exec .encrst (busyAt .data 1 2) = .next t ∧ exec .encrst t = .next u) :=
  ⟨by decide, ⟨_, _, rfl, rfl⟩⟩

/-- LED 0, the last LED, and an index beyond it. -/
theorem witness_SetWritesOneLed :
    (idle 2 []).Inv ∧ (idle 2 []).busy = false ∧ 0 = min (0 : Half).toNat ((idle 2 []).cfg.numLeds - 1) ∧
    1 = min (1 : Half).toNat ((idle 2 []).cfg.numLeds - 1) ∧
    1 = min (65535 : Half).toNat ((idle 2 []).cfg.numLeds - 1) := by decide
theorem witness_OutOfRangeIndexIsTheLastLed :
    (idle 2 []).cfg.WellFormed ∧ (idle 2 []).cfg.numLeds ≤ (2 : Half).toNat ∧
    (idle 2 []).cfg.numLeds ≤ (65535 : Half).toNat := by decide
theorem witness_SetAtFullBrightnessStoresTheColour :
    ((idle 2 []).Inv ∧ (idle 2 []).busy = false ∧ (1 : Half).toNat < (idle 2 []).cfg.numLeds ∧ (idle 2 []).brt = 255) ∧
    (State.Inv { idle 2 [] with brt := 0 } ∧ State.brt { idle 2 [] with brt := 0 } = 0) := by decide

/-- The last LED and a count of 0 (which writes nothing) and of 1. -/
theorem witness_FillSingleWritesOneLed :
    (idle 4 []).Inv ∧ (idle 4 []).busy = false ∧ (idle 4 []).cfg.fillMode = .single ∧
    3 = min (9 : Half).toNat ((idle 4 []).cfg.numLeds - 1) ∧ (1 : Half) ≠ 0 := by decide

/-- FILL_MODE = RANGE: an empty range, one LED, the whole strip. -/
theorem witness_FillRangeWritesItsLeds :
    State.Inv { idle 4 [] with cfg := cfgOf 4 .range } ∧ State.busy { idle 4 [] with cfg := cfgOf 4 .range } = false ∧
    (cfgOf 4 .range).fillMode = .range ∧
    (3 = min (9 : Half).toNat (4 - 1) ∧ 3 = min (3 + (0 : Half).toNat) 4) ∧
    (3 = min (3 : Half).toNat (4 - 1) ∧ 4 = min (3 + (10 : Half).toNat) 4) ∧
    (2 = min (2 : Half).toNat (4 - 1) ∧ 3 = min (2 + (1 : Half).toNat) 4) ∧
    (0 = min (0 : Half).toNat (4 - 1) ∧ 4 = min (0 + (65535 : Half).toNat) 4) := by decide
theorem witness_FillModesDifferOnlyBeyondTheFirstLed :
    (idle 4 []).Inv ∧ (3 = min (3 : Half).toNat (4 - 1) ∧ 4 = min (3 + (10 : Half).toNat) 4 ∧ 4 - 3 ≤ 1) ∧
    (1 = min (1 : Half).toNat (4 - 1) ∧ 3 = min (1 + (2 : Half).toNat) 4 ∧ ¬ 3 - 1 ≤ 1) := by decide
theorem witness_SetAndFillAreIdempotent :
    (idle 2 []).Inv ∧ (∃ t u, exec (.set 1 1 2 3) (idle 2 []) = .next t ∧ exec (.set 1 1 2 3) t = .next u) ∧
    (∃ t u, exec (.fill 0 2 1 2 3) (idle 2 []) = .next t ∧ exec (.fill 0 2 1 2 3) t = .next u) :=
  ⟨by decide, ⟨_, _, rfl, rfl⟩, ⟨_, _, rfl, rfl⟩⟩

/-- The smallest and the largest tick rate; FrameDecodesToItsBits takes the same two. -/
theorem witness_SymbolWordsForEveryTickRate : (1 ≤ 1 ∧ 1 ≤ 131) ∧ (1 ≤ 131 ∧ 131 ≤ 131) := by decide
theorem witness_FrameShapeAndDuration :
    (idle 1 pix28).cfg.WellFormed ∧ 0 < 8 * (idle 1 pix28).cfg.len ∧ 23 < 8 * (idle 1 pix28).cfg.len := by decide
theorem witness_FrameDecodesToItsBits : frame 1 (idle 1 pix28).bytes = frame 1 [0x3C, 0xA5, 0x01] := by decide

/-- The three rows of R127's table, from phase Data and from phase Reset. -/
theorem witness_EncodeClosedForm :
    ((busyAt .data 2 4).Inv ∧ (busyAt .data 2 4).busy = true ∧ 5 = 8 * 3 - (8 * 2 + 4) + 1) ∧
    ((busyAt .reset 0 0).Inv ∧ (busyAt .reset 0 0).busy = true ∧ (busyAt .reset 0 0).phase ≠ .data) ∧
    (5 ≤ (5 : Half).toNat ∧ (3 : Half).toNat + 1 < 5 ∧ ¬ (4 : Half).toNat + 1 < 5 ∧ ¬ 5 ≤ (4 : Half).toNat) := by decide
theorem witness_EncodeProgress : (busyAt .data 2 7).Inv ∧ (busyAt .data 2 7).busy = true ∧ (1 : Half) ≠ 0 := by decide
theorem witness_EncodeResumesWhereItYielded :
    (busyAt .data 0 0).Inv ∧ (busyAt .data 0 0).busy = true ∧ (10 : Half).toNat + (15 : Half).toNat ≤ 65535 ∧
    (0 : Half).toNat + (65535 : Half).toNat ≤ 65535 := by decide

/-- Short of the frame (no call, and 24 of 25 symbols); reached exactly, with calls before and after. -/
theorem witness_FrameLaw :
    (idle 1 pix28).Inv ∧ (idle 1 pix28).busy = false ∧ (idle 1 pix28).cfg.frameSyms = 25 ∧
    (([] : List Half).map BitVec.toNat).sum < 25 ∧ (([10, 10, 4] : List Half).map BitVec.toNat).sum < 25 ∧
    ([10, 10, 4, 1, 7] : List Half) = [10, 10, 4] ++ 1 :: [7] ∧
    25 ≤ (([10, 10, 4] : List Half).map BitVec.toNat).sum + (1 : Half).toNat := by decide

/-- Held, yielding, turning to Reset, completing: none of them aborts. -/
theorem witness_EveryStepConservesTheFrame :
    ((busyAt .data 2 4).present .host 0).abortsNext = false ∧
    (∃ t, step ((busyAt .data 2 4).present .host 0) = .next t) ∧
    ((busyAt .data 2 4).present .pipeline 0x8000000003000000).abortsNext = false ∧
    (busyAt .data 2 4).Inv ∧ ((busyAt .data 2 4).present .pipeline 0x8000000003000000).busy = true ∧
    (∃ t, step ((busyAt .data 2 4).present .pipeline 0x8000000003000000) = .next t) :=
  ⟨by decide, ⟨_, rfl⟩, by decide, by decide, by decide, ⟨_, rfl⟩⟩
/-- One step for each row: five symbols are lacking in Data at (2, 4), one in Reset. -/
theorem witness_SessionEdges :
    ((busyAt .data 2 4).Inv ∧ (busyAt .reset 0 0).Inv ∧ 8 * (busyAt .data 2 4).cfg.len - (busyAt .data 2 4).pos = 4) ∧
    (∃ t, step ((busyAt .data 2 4).present .host 0) = .next t ∧
      ((busyAt .data 2 4).present .host 0).spaceNext = 0) ∧
    (∃ t, step ((busyAt .data 2 4).present .pipeline 0x8000000003000000) = .next t ∧
      ((busyAt .data 2 4).present .pipeline 0x8000000003000000).spaceNext = 3) ∧
    (∃ t, step ((busyAt .data 2 4).present .pipeline 0x8000000004000000) = .next t ∧
      ((busyAt .data 2 4).present .pipeline 0x8000000004000000).spaceNext = 4) ∧
    (∃ t, step ((busyAt .data 2 4).present .pipeline 0x8000000005000000) = .next t ∧
      ((busyAt .data 2 4).present .pipeline 0x8000000005000000).spaceNext = 5) ∧
    (∃ t, step ((busyAt .reset 0 0).present .pipeline 0x8000000000000000) = .next t ∧
      ((busyAt .reset 0 0).present .pipeline 0x8000000000000000).spaceNext = 0) ∧
    (∃ t, step ((busyAt .reset 0 0).present .pipeline 0x8000000001000000) = .next t ∧
      ((busyAt .reset 0 0).present .pipeline 0x8000000001000000).spaceNext = 1) ∧
    ((busyAt .data 2 4).present .pipeline 0x8000000005000000).abortsNext = false ∧
    ((busyAt .data 2 4).present .pipeline 0x8000000005000000).busy = true :=
  ⟨⟨by decide, by decide, by decide⟩, ⟨_, rfl, rfl⟩, ⟨_, rfl, rfl⟩, ⟨_, rfl, rfl⟩, ⟨_, rfl, rfl⟩, ⟨_, rfl, rfl⟩,
    ⟨_, rfl, rfl⟩, by decide, by decide⟩
theorem witness_OrderOfFlushAndEncodeShows : (idle 1 pix28).Inv ∧ (idle 1 pix28).busy = false := by decide
/-- Idle; busy, so that the FLUSH is held; and the FLUSH on the port with the hold lifted. -/
theorem witness_FlushwEmitsOneFrame :
    ((idle 1 pix28).Inv ∧ (idle 1 pix28).busy = false ∧ 1 ≤ (1 : Half).toNat ∧ (idle 1 pix28).cfg.frameSyms ≤ 25) ∧
    ((busyAt .data 1 2).Inv ∧ (busyAt .data 1 2).busy = true) ∧
    (((idle 1 pix28).offer .host 0x4000000000000000).Inv ∧
      ((idle 1 pix28).offer .host 0x4000000000000000).busy = false ∧
      ((idle 1 pix28).offer .host 0x4000000000000000).hostPort = some 0x4000000000000000 :: []) :=
  ⟨by decide, by decide, by decide⟩
theorem witness_FirstFlushIsDark :
    (cfgOf 1 .single).WellFormed ∧ 1 ≤ (65535 : Half).toNat ∧ (cfgOf 1 .single).frameSyms ≤ 25 := by decide

end Sys2Proof.Tests
end

section
/-!
SUPPORT. The decoder by the columns of the opcode map, the step at a word that is held or ILLEGAL, and the three symbol
words as numbers (30_encoding.md R61 to R71).
-/

namespace Sys2Proof

/-! ### The opcode map's columns (R64) -/

/-- The `Match` column of R64. -/
def Opcode.matchWord : Opcode → CmdWord
  | .nop => 0x0000000000000000
  | .set => 0x1000000000000000
  | .fill => 0x2000000000000000
  | .setbrt => 0x3000000000000000
  | .flush => 0x4000000000000000
  | .encode => 0x8000000000000000
  | .encrst => 0x9000000000000000

theorem Opcode.matchWord_toNat (o : Opcode) : o.matchWord.toNat = o.code.toNat * 2 ^ 60 := by
  cases o <;> rfl

theorem cmdRsv_eq_zero_iff (w : CmdWord) : cmdRsv w = 0 ↔ w.toNat / 2 ^ 56 % 16 = 0 := by
  rw [← BitVec.toNat_inj, cmdRsv_toNat]
  rfl

/-- Mask and match test OP and RSV, and nothing else (R64). -/
theorem and_mask_eq_matchWord_iff (w : CmdWord) (o : Opcode) :
    w &&& 0xFF00000000000000 = o.matchWord ↔ cmdRsv w = 0 ∧ cmdOp w = o.code := by
  rw [← BitVec.toNat_inj, and_mask_toNat, o.matchWord_toNat, cmdRsv_eq_zero_iff, ← BitVec.toNat_inj, cmdOp_toNat]
  omega

/-- `OP[3]` is 1 for exactly the pipeline commands (R64). -/
theorem Opcode.code_getLsbD_three (o : Opcode) : o.code.getLsbD 3 = decide (o.port = .pipeline) := by
  cases o <;> rfl

/-- Bit 63 of a command word is `OP[3]` (R61). -/
theorem cmdOp_getLsbD_three (w : CmdWord) : (cmdOp w).getLsbD 3 = w.getLsbD 63 := by
  simp [cmdOp]

/-- The port of the row an OP value selects: OP 0 to 4 the host's, 8 and 9 the pipeline's, the others reserved (R64). -/
theorem opcodeOf_map_port (op : BitVec 4) : (opcodeOf op).map Opcode.port =
    if op.toNat ≤ 4 then some .host else if op.toNat ∈ [8, 9] then some .pipeline else none := by
  revert op
  decide

/-! ### The decoder by rows (R64, R65, R67) -/

/-- The row of the opcode map that a command belongs to. -/
def Instr.row : Instr → Opcode
  | .nop => .nop
  | .set _ _ _ _ => .set
  | .fill _ _ _ _ _ => .fill
  | .setbrt _ => .setbrt
  | .flush => .flush
  | .encode _ => .encode
  | .encrst => .encrst

@[simp] theorem Opcode.row_instr (o : Opcode) (w : CmdWord) : (o.instr w).row = o := by cases o <;> rfl

/-- ILLEGAL (a) of R67. -/
theorem decode_of_rsv_ne_zero {p : Port} {w : CmdWord} (hr : cmdRsv w ≠ 0) : decode p w = .error .reservedBits :=
  if_neg hr

/-- ILLEGAL (b) of R67. -/
theorem decode_of_reserved_opcode {p : Port} {w : CmdWord} (hr : cmdRsv w = 0) (ho : opcodeOf (cmdOp w) = none) :
    decode p w = .error .reservedOpcode := by
  simp [decode, hr, ho]

/-- ILLEGAL (c) and (d) of R67. -/
theorem decode_of_wrong_port {p : Port} {w : CmdWord} {o : Opcode} (hr : cmdRsv w = 0)
    (ho : opcodeOf (cmdOp w) = some o) (hp : o.port ≠ p) : decode p w = .error .wrongPort := by
  simp [decode, hr, ho, hp]

/-- A word whose RSV is 0 and whose OP is a row's code decodes, on the row's port, to the row's command. -/
theorem decode_of_code {w : CmdWord} {o : Opcode} (hr : cmdRsv w = 0) (ho : cmdOp w = o.code) :
    decode o.port w = .ok (o.instr w) := by
  simp [decode, hr, ho]

/-- What decodes to a command: a word that meets the mask and match of the command's row, on the row's port, with the
row's operands of R62. -/
theorem decode_eq_ok_iff {p : Port} {w : CmdWord} {i : Instr} :
    decode p w = .ok i ↔
      (w &&& 0xFF00000000000000 = i.row.matchWord ∧ p = i.row.port) ∧ i = i.row.instr w := by
  rw [and_mask_eq_matchWord_iff]
  constructor
  · intro h
    obtain ⟨hr, o, ho, hp, rfl⟩ := decode_ok h
    simp [hr, code_of_opcodeOf ho, hp]
  · rintro ⟨⟨⟨hr, ho⟩, rfl⟩, hi⟩
    rw [decode_of_code hr ho, ← hi]

/-- A decoded command has the operands of its row's fields (R62). -/
theorem eq_instr_of_decode_ok {p : Port} {w : CmdWord} {i : Instr} (h : decode p w = .ok i) : i = i.row.instr w :=
  (decode_eq_ok_iff.1 h).2

/-- A word is ILLEGAL when RSV is not 0, or OP selects no row of this port (R67). -/
theorem exists_decode_error_iff {p : Port} {w : CmdWord} :
    (∃ e, decode p w = .error e) ↔ cmdRsv w ≠ 0 ∨ (opcodeOf (cmdOp w)).map Opcode.port ≠ some p := by
  by_cases hr : cmdRsv w = 0
  · cases ho : opcodeOf (cmdOp w) with
    | none => simp [decode_of_reserved_opcode hr ho]
    | some o =>
      by_cases hp : o.port = p
      · subst hp
        simp [decode_of_code hr (code_of_opcodeOf ho).symm, hr]
      · simp [decode_of_wrong_port hr ho hp, hp]
  · exact iff_of_true ⟨_, decode_of_rsv_ne_zero hr⟩ (.inl hr)

/-- The ILLEGAL words of R67 by the values of RSV and OP. -/
theorem exists_decode_error_iff_fields (p : Port) (w : CmdWord) :
    (∃ e, decode p w = .error e) ↔
      (w.toNat / 2 ^ 56 % 16 ≠ 0 ∨ w.toNat / 2 ^ 60 ∈ [5, 6, 7, 10, 11, 12, 13, 14, 15] ∨
        (w.toNat / 2 ^ 60 ≤ 4 ∧ p = .pipeline) ∨ (w.toNat / 2 ^ 60 ∈ [8, 9] ∧ p = .host)) := by
  have hlt := w.isLt
  rw [exists_decode_error_iff, opcodeOf_map_port, cmdOp_toNat, Ne, cmdRsv_eq_zero_iff]
  simp only [List.mem_cons, List.not_mem_nil, or_false]
  cases p <;> split_ifs <;> simp <;> omega

/-- Bit 63 of a word that decodes names the port (R64). -/
theorem getLsbD_63_of_decode_ok {p : Port} {w : CmdWord} {i : Instr} (h : decode p w = .ok i) :
    w.getLsbD 63 = true ↔ p = .pipeline := by
  obtain ⟨-, o, ho, rfl, -⟩ := decode_ok h
  rw [← cmdOp_getLsbD_three, ← code_of_opcodeOf ho, Opcode.code_getLsbD_three, decide_eq_true_iff]

/-! ### The operands as numbers (R61, R62) -/

theorem cmdIdx_toNat (w : CmdWord) : (cmdIdx w).toNat = w.toNat / 2 ^ 40 % 2 ^ 16 := by
  simp only [cmdIdx, BitVec.extractLsb'_toNat, Nat.shiftRight_eq_div_pow]

theorem cmdCnt_toNat (w : CmdWord) : (cmdCnt w).toNat = w.toNat / 2 ^ 24 % 2 ^ 16 := by
  simp only [cmdCnt, BitVec.extractLsb'_toNat, Nat.shiftRight_eq_div_pow]

theorem cmdR_toNat (w : CmdWord) : (cmdR w).toNat = w.toNat / 2 ^ 16 % 2 ^ 8 := by
  simp only [cmdR, BitVec.extractLsb'_toNat, Nat.shiftRight_eq_div_pow]

theorem cmdG_toNat (w : CmdWord) : (cmdG w).toNat = w.toNat / 2 ^ 8 % 2 ^ 8 := by
  simp only [cmdG, BitVec.extractLsb'_toNat, Nat.shiftRight_eq_div_pow]

theorem cmdB_toNat (w : CmdWord) : (cmdB w).toNat = w.toNat % 2 ^ 8 := by
  simp only [cmdB, BitVec.extractLsb'_toNat, Nat.shiftRight_zero]

end Sys2Proof

namespace Sys2Proof.Machine

/-! ### A turn at a presented word (R67, 60_exceptions.md R172, 43_driver_control.md R156) -/

variable {s : State} {p : Port} {w : CmdWord}

/-- A ready port takes the word it is presented with. -/
theorem portTurn_ready (hp : s.presented p = some w) (hr : s.ready p = true) :
    portTurn p s = perform p w (s.accept p) := by
  simp [portTurn, hp, hr]

/-- A port that is not ready holds its word, whatever the word is. -/
theorem portTurn_not_ready (hp : s.presented p = some w) (hr : s.ready p = false) : portTurn p s = .next s.hold := by
  simp [portTurn, hp, hr]

theorem perform_illegal {e : Illegal} (hd : decode p w = .error e) : perform p w s = .next (answerIllegal p s) := by
  simp [perform, hd]

/-- The ILLEGAL answer adds the word 0x0004_0000 to the output history, and changes nothing else. -/
theorem answerIllegal_eq (p : Port) (s : State) :
    answerIllegal p s = { s with out := s.out ++ [.response p 0x00040000] } := by
  simp [answerIllegal, State.respond]

section Head

variable {x : Option CmdWord} {q : List (Option CmdWord)} {a : Agent} {r : List Agent} (hs : s.sched = a :: r)
include hs

theorem State.accept_host_eq (hp : s.hostPort = x :: q) : s.accept .host = { s with sched := r, hostPort := q } := by
  simp [State.accept, State.advancePort, State.endTurn, hs, hp]

theorem State.accept_pipeline_eq (hp : s.pipePort = x :: q) :
    s.accept .pipeline = { s with sched := r, pipePort := q } := by
  simp [State.accept, State.advancePort, State.endTurn, hs, hp]

theorem State.hold_eq : s.hold = { s with sched := r } := by
  simp [State.hold, State.endTurn, hs]

end Head

/-- What stands at the head of the host port is presented there (R75). -/
theorem State.presented_host {x : Option CmdWord} {q : List (Option CmdWord)} (hp : s.hostPort = x :: q) :
    s.presented .host = x := by
  simp [State.presented, State.portInput, hp]

/-- What stands at the head of the pipeline port is presented there (R75). -/
theorem State.presented_pipeline {x : Option CmdWord} {q : List (Option CmdWord)} (hp : s.pipePort = x :: q) :
    s.presented .pipeline = x := by
  simp [State.presented, State.portInput, hp]

theorem State.ready_host (s : State) : s.ready .host = !s.busy := rfl

theorem State.ready_pipeline (s : State) : s.ready .pipeline = true := rfl

/-! ### A step at an ILLEGAL word (R67) -/

section Step

variable {e : Illegal} {q : List (Option CmdWord)} {r : List Agent} (hw : s.cfg.WellFormed)
include hw

/-- While BUSY = 1 the Host's turn at any word is spent, and nothing else changes (R156). -/
theorem step_host_held (hs : s.sched = .host :: r) (hp : s.hostPort = some w :: q) (hb : s.busy = true) :
    step s = .next { s with sched := r } := by
  rw [step_portTurn (p := .host) hw hs, portTurn_not_ready (State.presented_host hp) (by rw [State.ready_host, hb]; rfl),
    State.hold_eq hs]

theorem step_host_illegal (hs : s.sched = .host :: r) (hp : s.hostPort = some w :: q) (hb : s.busy = false)
    (hd : decode .host w = .error e) :
    step s = .next { s with sched := r, hostPort := q, out := s.out ++ [.response .host 0x00040000] } := by
  rw [step_portTurn (p := .host) hw hs, portTurn_ready (State.presented_host hp) (by rw [State.ready_host, hb]; rfl),
    perform_illegal hd, State.accept_host_eq hs hp, answerIllegal_eq]

theorem step_pipeline_illegal (hs : s.sched = .pipeline :: r) (hp : s.pipePort = some w :: q)
    (hd : decode .pipeline w = .error e) :
    step s = .next { s with sched := r, pipePort := q, out := s.out ++ [.response .pipeline 0x00040000] } := by
  rw [step_portTurn (p := .pipeline) hw hs, portTurn_ready (State.presented_pipeline hp) s.ready_pipeline,
    perform_illegal hd, State.accept_pipeline_eq hs hp, answerIllegal_eq]

end Step

/-! ### Symbol words as numbers (R68 to R71) -/

/-- A symbol word as the sum of its shifted fields (R68). -/
theorem Symbol.pack_toNat (s : Symbol) : s.pack.toNat =
    s.level1.toNat * 2 ^ 31 + s.dur1.toNat * 2 ^ 16 + s.level0.toNat * 2 ^ 15 + s.dur0.toNat := by
  have h : s.pack.toNat =
      (BitVec.ofBool s.level1 ++ s.dur1 ++ BitVec.ofBool s.level0 ++ s.dur0 : BitVec (1 + 15 + 1 + 15)).toNat := rfl
  rw [h]
  simp only [append_toNat, BitVec.toNat_ofBool]
  omega

/-- A duration below 2^15 is not truncated by its field. -/
theorem dur_toNat {n : Nat} (h : n ≤ 32767) : (BitVec.ofNat 15 n).toNat = n := by
  rw [BitVec.toNat_ofNat]
  omega

section TickRate

variable {k : Nat} (h : k ≤ 131)
include h

theorem bit0Sym_wave : (bit0Sym k).wave = [(true, 3 * k), (false, 9 * k)] := by
  simp only [bit0Sym, Symbol.wave, t0h, t0l]
  rw [dur_toNat (by omega), dur_toNat (by omega)]

theorem bit1Sym_wave : (bit1Sym k).wave = [(true, 9 * k), (false, 3 * k)] := by
  simp only [bit1Sym, Symbol.wave, t1h, t1l]
  rw [dur_toNat (by omega), dur_toNat (by omega)]

theorem resetSym_wave : (resetSym k).wave = [(false, 250 * k), (false, 250 * k)] := by
  simp only [resetSym, Symbol.wave, trstHalf]
  rw [dur_toNat (by omega)]

end TickRate

/-- A symbol word read off its waveform (R68, R72). -/
theorem Symbol.pack_toNat_of_wave {s : Symbol} {l0 l1 : Bool} {d0 d1 : Nat} (h : s.wave = [(l0, d0), (l1, d1)]) :
    s.pack.toNat = l1.toNat * 2 ^ 31 + d1 * 2 ^ 16 + l0.toNat * 2 ^ 15 + d0 := by
  simp only [Symbol.wave, List.cons.injEq, Prod.mk.injEq, and_true] at h
  obtain ⟨⟨rfl, rfl⟩, rfl, rfl⟩ := h
  exact s.pack_toNat

end Sys2Proof.Machine
end

section
/-!
PROOFS. The obligations on decoding, ILLEGAL words and symbol words (30_encoding.md).
-/

namespace Sys2Proof.Machine

/-- Settles O5: each command's clause is `decode_eq_ok_iff` for its row; the other two are ILLEGAL (b) and bit 63. -/
theorem opcodeMapSelectsByMask : Obligations.OpcodeMapSelectsByMask := by
  intro p w
  have hreserved := fun h => (exists_decode_error_iff_fields p w).2 (.inr (.inl h))
  refine ⟨?_, ?_, ?_, ?_, ?_, ?_, ?_, hreserved, fun _ => getLsbD_63_of_decode_ok⟩
  all_goals simp [decode_eq_ok_iff, Instr.row, Opcode.matchWord, Opcode.port, Opcode.instr]

/-- Settles O6: the operands of a decoded command are its row's fields, read as numbers. -/
theorem operandsAreTheirFields : Obligations.OperandsAreTheirFields := by
  intro p w
  refine ⟨fun idx r g b h => ?_, fun idx cnt r g b h => ?_, fun lvl h => ?_, fun space h => ?_⟩
  · obtain ⟨rfl, rfl, rfl, rfl⟩ := Instr.set.inj (eq_instr_of_decode_ok h)
    exact ⟨cmdIdx_toNat w, cmdR_toNat w, cmdG_toNat w, cmdB_toNat w⟩
  · obtain ⟨rfl, rfl, rfl, rfl, rfl⟩ := Instr.fill.inj (eq_instr_of_decode_ok h)
    exact ⟨cmdIdx_toNat w, cmdCnt_toNat w, cmdR_toNat w, cmdG_toNat w, cmdB_toNat w⟩
  · rw [Instr.setbrt.inj (eq_instr_of_decode_ok h), cmdB_toNat]
  · rw [Instr.encode.inj (eq_instr_of_decode_ok h), cmdCnt_toNat]

/-- Settles O11: R67's four kinds of ILLEGAL word by their fields, then the step of each port at one. -/
theorem illegalWordsAreAnsweredErr : Obligations.IllegalWordsAreAnsweredErr :=
  ⟨exists_decode_error_iff_fields,
    fun _ _ _ _ _ hw hs hp hd => ⟨fun hb => step_host_illegal hw hs hp hb hd, step_host_held hw hs hp⟩,
    fun _ _ _ _ _ hw hs hp hd => step_pipeline_illegal hw hs hp hd⟩

/-- Settles O36: the waveforms for `K ≤ 131`, and the words they pack to. -/
theorem symbolWordsForEveryTickRate : Obligations.SymbolWordsForEveryTickRate := by
  refine ⟨fun k h1 h => ?_, by decide, by decide, by decide⟩
  have w0 := bit0Sym_wave h
  have w1 := bit1Sym_wave h
  have wr := resetSym_wave h
  refine ⟨?_, ?_, ?_, rfl, rfl, w0, w1, wr, by omega, by omega⟩
  · simpa using Symbol.pack_toNat_of_wave w0
  · simpa using Symbol.pack_toNat_of_wave w1
  · simpa using Symbol.pack_toNat_of_wave wr

end Sys2Proof.Machine
end

section
/-!
SUPPORT. The brightness scaler on numbers (40_brightness_scaler.md R90, R91).
-/

namespace Sys2Proof.Machine

/-- The largest product is 255 × 255, so it fits 16 bits (R91). -/
theorem byte_mul_le (c b : Byte) : c.toNat * b.toNat ≤ 65025 :=
  Nat.mul_le_mul (Nat.le_of_lt_succ c.isLt) (Nat.le_of_lt_succ b.isLt)

/-- The product is exact and the shift is the floor of the division by 256 (R91). -/
theorem scaledProduct_toNat (c b : Byte) : (scaledProduct c b).toNat = c.toNat * b.toNat / 256 := by
  have hle := byte_mul_le c b
  simp only [scaledProduct, BitVec.extractLsb'_toNat, BitVec.toNat_mul,
    BitVec.toNat_setWidth_of_le (show 8 ≤ 16 by decide), Nat.shiftRight_eq_div_pow]
  omega

/-- `scale` on numbers: the increment never carries out of 8 bits, the shifted product being at most 254 (R91). -/
theorem scale_toNat (c b : Byte) :
    (scale c b).toNat = c.toNat * b.toNat / 256 + (if c ≠ 0 ∧ b ≠ 0 then 1 else 0) := by
  have hle := byte_mul_le c b
  have h1 : (1 : Byte).toNat = 1 := rfl
  unfold scale
  split
  · rw [BitVec.toNat_add, scaledProduct_toNat, h1]
    omega
  · rw [scaledProduct_toNat, Nat.add_zero]

@[simp] theorem scale_zero_left (b : Byte) : scale 0 b = 0 := BitVec.eq_of_toNat_eq (by simp [scale_toNat])

@[simp] theorem scale_zero_right (c : Byte) : scale c 0 = 0 := BitVec.eq_of_toNat_eq (by simp [scale_toNat])

/-- The increment alone keeps two non-zero inputs off zero (R93). -/
theorem one_le_scale_toNat {c b : Byte} (hc : c ≠ 0) (hb : b ≠ 0) : 1 ≤ (scale c b).toNat := by
  rw [scale_toNat, if_pos ⟨hc, hb⟩]
  exact Nat.le_add_left 1 _

end Sys2Proof.Machine
end

section
/-!
PROOFS. The obligations on the brightness scaler (40_brightness_scaler.md).
-/

namespace Sys2Proof.Machine

/-- Settles O1: `scale` on numbers, with the bound on the product and hence on its quotient. -/
theorem scaleIsTheFormula : Obligations.ScaleIsTheFormula := by
  refine ⟨fun c b => ?_, by decide⟩
  have hle := byte_mul_le c b
  exact ⟨scale_toNat c b, hle, by omega⟩

/-- Settles O2: a zero input makes product and increment zero; two non-zero inputs get the increment. -/
theorem scaleIsZeroExactlyAtZero : Obligations.ScaleIsZeroExactlyAtZero := by
  refine ⟨scale_zero_left, scale_zero_right, fun c b hc hb => ?_, by decide⟩
  have hc0 : c ≠ 0 := mt (congrArg BitVec.toNat) hc.ne'
  have hb0 : b ≠ 0 := mt (congrArg BitVec.toNat) hb.ne'
  exact one_le_scale_toNat hc0 hb0

end Sys2Proof.Machine
end

section
/-!
SUPPORT. SET and FILL as one operation on a set of LEDs, and the buffer it leaves (41_pixel_buffer.md R101 to R106).
-/

namespace Sys2Proof.Machine

/-! ### The LEDs that FILL writes -/

theorem fillCount_pos_iff {c : Config} (h : 1 ≤ c.numLeds) (index count : Half) :
    0 < fillCount c index count ↔ count ≠ 0 := by
  have hi := clampIdx_lt h index
  have hc : count ≠ 0 ↔ count.toNat ≠ 0 := BitVec.toNat_inj.symm.not
  rw [hc]
  unfold fillCount fillEnd
  omega

/-- SINGLE writes LED `i` and no other, and not even that one for a count of 0 (R105). -/
theorem mem_fillTargets_single {c : Config} (h : 1 ≤ c.numLeds) (hm : c.fillMode = .single) {index count : Half}
    {led : Nat} : led ∈ fillTargets c index count ↔ count ≠ 0 ∧ led = clampIdx c index := by
  rw [← fillCount_pos_iff h index, Nat.pos_iff_ne_zero]
  simp [fillTargets, hm]

/-- RANGE writes LEDs `i .. e − 1` (R106). -/
theorem mem_fillTargets_range {c : Config} (hm : c.fillMode = .range) {index count : Half} {led : Nat} :
    led ∈ fillTargets c index count ↔ clampIdx c index ≤ led ∧ led < fillEnd c index count := by
  simp only [fillTargets, hm, List.mem_range'_1, fillCount]
  omega

/-- A count of 0 ends the fill where it starts (decision D14). -/
theorem fillEnd_zero {c : Config} (h : 1 ≤ c.numLeds) (index : Half) : fillEnd c index 0 = clampIdx c index :=
  Nat.min_eq_left (clampIdx_lt h index).le

/-- A count of 1 ends the fill after its first LED. -/
theorem fillEnd_one {c : Config} (h : 1 ≤ c.numLeds) (index : Half) : fillEnd c index 1 = clampIdx c index + 1 :=
  Nat.min_eq_left (clampIdx_lt h index)

/-! ### A painted buffer -/

/-- `n` is the buffer `m` with the LEDs of the list set to one scaled colour, and no other byte changed. -/
def Memory.Painted (c : Colour) (brt : Byte) (leds : List Nat) (m n : Memory) : Prop :=
  ∀ a, Memory.get n a = if a / 3 ∈ leds then wireByte c brt (a % 3) else Memory.get m a

namespace Memory.Painted

variable {c : Colour} {brt : Byte} {leds leds' : List Nat} {m n n' : Memory}

theorem nil (c : Colour) (brt : Byte) (m : Memory) : Memory.Painted c brt [] m m := fun a => by simp

/-- The buffer depends on which LEDs are written, not on their order or on how often each is. -/
theorem unique (h : Memory.Painted c brt leds m n) (h' : Memory.Painted c brt leds' m n') (hn : Memory.wf n)
    (hn' : Memory.wf n') (hl : ∀ led, led ∈ leds ↔ led ∈ leds') : n = n' :=
  Memory.eq_of_get hn hn' fun a => by rw [h, h', if_congr (hl _) rfl rfl]

/-- The three bytes of a written LED, in wire order (R102). -/
theorem get_led (h : Memory.Painted c brt leds m n) {led : Nat} (hl : led ∈ leds) :
    Memory.get n (3 * led) = scale c.g brt ∧ Memory.get n (3 * led + 1) = scale c.r brt ∧
      Memory.get n (3 * led + 2) = scale c.b brt := by
  have hbyte : ∀ j < 3, Memory.get n (3 * led + j) = wireByte c brt j := by
    intro j hj
    rw [h, show (3 * led + j) / 3 = led by omega, show (3 * led + j) % 3 = j by omega, if_pos hl]
  exact ⟨hbyte 0 (by decide), hbyte 1 (by decide), hbyte 2 (by decide)⟩

theorem get_other (h : Memory.Painted c brt leds m n) {a : Nat} (ha : a / 3 ∉ leds) :
    Memory.get n a = Memory.get m a := by
  rw [h, if_neg ha]

end Memory.Painted

/-! ### SET and FILL as painting -/

/-- Write a list of LEDs in one colour, and answer success on the host port. -/
def paint (leds : List Nat) (c : Colour) (s : State) : Host.Outcome State Fault Refusal :=
  andThen (writePixels leds c s) fun t => .next (t.respond .host rspOk)

theorem writePixels_singleton (led : Nat) (c : Colour) (s : State) :
    writePixels [led] c s = writePixel led c s := by
  show andThen (writePixel led c s) .next = _
  cases writePixel led c s <;> rfl

theorem exec_fill_eq_paint (idx cnt : Half) (r g b : Byte) (s : State) :
    exec (.fill idx cnt r g b) s = paint (fillTargets s.cfg idx cnt) { r := r, g := g, b := b } s := rfl

/-- SET is a fill of the clamped LED alone (R103). -/
theorem exec_set_eq_paint (idx : Half) (r g b : Byte) (s : State) :
    exec (.set idx r g b) s = paint [clampIdx s.cfg idx] { r := r, g := g, b := b } s := by
  rw [paint, writePixels_singleton]
  rfl

section Paint

variable {s : State} (hb : s.BufferInv)
include hb

/-- Painting LEDs of the strip succeeds, and changes nothing but their bytes and the output (R102 to R106). -/
theorem paint_spec {leds : List Nat} (c : Colour) (hl : ∀ led ∈ leds, led < s.cfg.numLeds) :
    ∃ m, paint leds c s = .next { s with pix := m, out := s.out ++ [.response .host 0x00000000] } ∧
      (s.setPix m).BufferInv ∧ Memory.Painted c s.brt leds s.pix m := by
  obtain ⟨m, hm, hbm, hp⟩ := writePixels_spec c hl hb
  refine ⟨m, ?_, hbm, hp⟩
  rw [paint, hm, andThen_next, State.respond, rspOk_pack]
  rfl

/-- Two lists of the same LEDs are painted alike. -/
theorem paint_congr {leds leds' : List Nat} (c : Colour) (hl : ∀ led ∈ leds, led < s.cfg.numLeds)
    (h : ∀ led, led ∈ leds ↔ led ∈ leds') : paint leds c s = paint leds' c s := by
  obtain ⟨m, hm, ⟨hwf, -⟩, hp⟩ := paint_spec hb c hl
  obtain ⟨m', hm', ⟨hwf', -⟩, hp'⟩ := paint_spec hb c fun led hled => hl led ((h led).2 hled)
  rw [hm, hm', hp.unique hp' hwf hwf' h]

end Paint

section Commands

variable {s : State} (hs : s.Inv)
include hs

theorem exec_set_spec (idx : Half) (r g b : Byte) :
    ∃ m, exec (.set idx r g b) s = .next { s with pix := m, out := s.out ++ [.response .host 0x00000000] } ∧
      (s.setPix m).BufferInv ∧ Memory.Painted { r := r, g := g, b := b } s.brt [clampIdx s.cfg idx] s.pix m := by
  obtain ⟨hwf, -, hb⟩ := hs
  rw [exec_set_eq_paint]
  exact paint_spec hb _ (List.forall_mem_singleton.2 (clampIdx_lt hwf.1 idx))

theorem exec_fill_spec (idx cnt : Half) (r g b : Byte) :
    ∃ m, exec (.fill idx cnt r g b) s = .next { s with pix := m, out := s.out ++ [.response .host 0x00000000] } ∧
      (s.setPix m).BufferInv ∧
      Memory.Painted { r := r, g := g, b := b } s.brt (fillTargets s.cfg idx cnt) s.pix m := by
  obtain ⟨hwf, -, hb⟩ := hs
  exact paint_spec hb _ fun led hl => (mem_fillTargets hwf.1 hl).2.2

/-- A FILL that writes the clamped LED and no other is SET (R105, R106). -/
theorem exec_fill_eq_set {idx cnt : Half} (r g b : Byte)
    (h : ∀ led, led ∈ fillTargets s.cfg idx cnt ↔ led = clampIdx s.cfg idx) :
    exec (.fill idx cnt r g b) s = exec (.set idx r g b) s := by
  obtain ⟨hwf, -, hb⟩ := hs
  rw [exec_fill_eq_paint, exec_set_eq_paint]
  refine paint_congr hb _ (fun led hl => (mem_fillTargets hwf.1 hl).2.2) fun led => ?_
  rw [h, List.mem_singleton]

end Commands

end Sys2Proof.Machine
end

section
/-!
PROOFS. The obligations on SET and FILL (41_pixel_buffer.md).
-/

namespace Sys2Proof.Machine

/-- Settles O29: SET paints the clamped LED, whose last byte is inside the buffer. -/
theorem setWritesOneLed : Obligations.SetWritesOneLed := by
  rintro idx r g b s i hs - hi
  have ⟨⟨hleds, _⟩, _⟩ := hs
  obtain rfl : i = clampIdx s.cfg idx := hi
  obtain ⟨m, hm, -, hp⟩ := exec_set_spec hs idx r g b
  obtain ⟨hg, hr, hb⟩ := hp.get_led (List.mem_singleton_self _)
  have hin : 3 * clampIdx s.cfg idx + 2 < 3 * s.cfg.numLeds := by
    have := clampIdx_lt hleds idx
    omega
  refine ⟨m, hm, hg, hr, hb, hin, fun a ha => hp.get_other ?_⟩
  rw [List.mem_singleton]
  omega

/-- Settles O32: SINGLE paints LED `i` alone, or no LED for a count of 0. -/
theorem fillSingleWritesOneLed : Obligations.FillSingleWritesOneLed := by
  rintro idx cnt r g b s i hs - hmode hi
  have ⟨⟨hleds, _⟩, _, hpix, _⟩ := hs
  obtain rfl : i = clampIdx s.cfg idx := hi
  have hmem := fun led => mem_fillTargets_single hleds hmode (index := idx) (count := cnt) (led := led)
  obtain ⟨m, hm, ⟨hwf, -⟩, hp⟩ := exec_fill_spec hs idx cnt r g b
  refine ⟨m, hm, fun h0 => ?_, fun h0 => ⟨?_, hp.get_led ((hmem _).2 ⟨h0, rfl⟩)⟩, fun a ha => hp.get_other ?_⟩
  · exact hp.unique (.nil _ _ _) hwf hpix fun led => by rw [hmem]; simp [h0]
  · exact exec_fill_eq_set hs r g b fun led => (hmem led).trans (and_iff_right h0)
  · rw [hmem]
    omega

/-- Settles O33: RANGE paints LEDs `i .. e − 1`, where `e` is `i` for a count of 0 and `i + 1` for a count of 1. -/
theorem fillRangeWritesItsLeds : Obligations.FillRangeWritesItsLeds := by
  rintro idx cnt r g b s i e hs - hmode hi he
  have ⟨⟨hleds, _⟩, _, hpix, _⟩ := hs
  obtain rfl : i = clampIdx s.cfg idx := hi
  obtain rfl : e = fillEnd s.cfg idx cnt := he
  have hmem := fun led => mem_fillTargets_range hmode (index := idx) (count := cnt) (led := led)
  obtain ⟨m, hm, ⟨hwf, -⟩, hp⟩ := exec_fill_spec hs idx cnt r g b
  refine ⟨m, hm, fun h0 => ?_, fun h1 => ?_, fun led hi he => hp.get_led ((hmem led).2 ⟨hi, he⟩),
    fun a ha => hp.get_other ?_⟩
  · refine hp.unique (.nil _ _ _) hwf hpix fun led => ?_
    rw [hmem, h0, fillEnd_zero hleds]
    simp
  · refine exec_fill_eq_set hs r g b fun led => ?_
    rw [hmem, h1, fillEnd_one hleds]
    omega
  · rw [hmem]
    omega

end Sys2Proof.Machine
end

section
/-!
SUPPORT. ENCODE and ENCRST in closed form, and what a session still lacks (42_protocol_encoder.md R125 to R128).
-/

namespace Sys2Proof.Machine

variable {s : State}

/-! ### ENCRST, and ENCODE without a session -/

/-- ENCRST puts the session in its initial state and answers success (R128). -/
theorem exec_encrst_eq (s : State) :
    exec .encrst s = .next
      { s with
        phase := .data, byteIdx := 0, bitIdx := 0, busy := false
        out := s.out ++ [.response .pipeline 0x00000000] } := by
  show Host.Outcome.next (((restartSession s).setBusy false).respond .pipeline rspOk) = _
  rw [State.respond, rspOk_pack]
  rfl

/-- With BUSY = 0 the session is in its initial state already (R28 item 3), so ENCRST only answers. -/
theorem exec_encrst_idle (hs : s.SessionInv) (hb : s.busy = false) :
    exec .encrst s = .next { s with out := s.out ++ [.response .pipeline 0x00000000] } := by
  obtain ⟨-, -, hidle⟩ := hs
  obtain ⟨hphase, hbyte, hbit⟩ := hidle hb
  rw [exec_encrst_eq, ← hphase, ← hbyte, ← hbit, ← hb]

/-- With BUSY = 0 there is no session to advance: ENCODE answers the empty status (R125). -/
theorem exec_encode_idle (space : Half) (hb : s.busy = false) :
    exec (.encode space) s = .next { s with out := s.out ++ [.response .pipeline 0x00000000] } := by
  show execEncode space s = _
  simp [execEncode, hb, State.respond]

/-! ### ENCODE in a session, by its phase (R126) -/

theorem exec_encode_data (space : Half) (hb : s.busy = true) (hp : s.phase = .data) :
    exec (.encode space) s = encodeData space.toNat s := by
  show execEncode space s = _
  rw [execEncode, hb, hp]
  rfl

theorem exec_encode_reset (space : Half) (hb : s.busy = true) (hp : s.phase = .reset) :
    exec (.encode space) s = .next (encodeReset space.toNat 0 s) := by
  show execEncode space s = _
  rw [execEncode, hb, hp]
  rfl

/-! ### What the session still lacks (R127) -/

theorem State.remaining_data (hb : s.busy = true) (hp : s.phase = .data) :
    s.remaining = (frame s.cfg.k s.bytes).drop s.pos := by
  rw [State.remaining, hb, hp]
  rfl

theorem State.remaining_reset (hb : s.busy = true) (hp : s.phase = .reset) :
    s.remaining = [(resetSym s.cfg.k).pack] := by
  rw [State.remaining, hb, hp]
  rfl

/-- In phase Data the data symbols from the place on are lacking, and RESET_SYM. -/
theorem State.length_remaining_data (hb : s.busy = true) (hp : s.phase = .data) (hlt : s.byteIdx.toNat < s.cfg.len) :
    s.remaining.length = 8 * s.cfg.len - s.pos + 1 := by
  have hpos := s.pos_lt_iff.2 hlt
  rw [State.remaining_data hb hp, List.length_drop, frame_length, State.bytes_length]
  omega

/-- In phase Reset only RESET_SYM is lacking. -/
theorem State.length_remaining_reset (hb : s.busy = true) (hp : s.phase = .reset) : s.remaining.length = 1 := by
  rw [State.remaining_reset hb hp, List.length_singleton]

/-- `W` of R127, in either phase. -/
theorem State.length_remaining (hb : s.busy = true) (hlt : s.byteIdx.toNat < s.cfg.len) :
    s.remaining.length = if s.phase = .data then 8 * s.cfg.len - s.pos + 1 else 1 := by
  cases hp : s.phase with
  | data => rw [State.length_remaining_data hb hp hlt, if_pos rfl]
  | reset => rw [State.length_remaining_reset hb hp, if_neg (by decide)]

/-- A session lacks its RESET_SYM at least, and the whole frame at most. -/
theorem State.length_remaining_bounds (hb : s.busy = true) (hlt : s.byteIdx.toNat < s.cfg.len) :
    1 ≤ s.remaining.length ∧ s.remaining.length ≤ s.cfg.frameSyms := by
  rw [State.length_remaining hb hlt, Config.frameSyms]
  split_ifs <;> omega

/-- The data symbols of a call that stays in the data are the first that are lacking. -/
theorem State.dataWords_eq_take (hb : s.busy = true) (hp : s.phase = .data) {n : Nat}
    (hn : s.pos + n ≤ 8 * s.cfg.len) : s.dataWords n = s.remaining.take n := by
  rw [State.remaining_data hb hp, State.dataWords, map_dataWord s hn]

/-- All the data symbols left and RESET_SYM are what is lacking. -/
theorem State.dataWords_append_reset (hb : s.busy = true) (hp : s.phase = .data)
    (hlt : s.byteIdx.toNat < s.cfg.len) :
    s.dataWords (8 * s.cfg.len - s.pos) ++ [(resetSym s.cfg.k).pack] = s.remaining := by
  have hend : s.pos + (8 * s.cfg.len - s.pos) = 8 * s.cfg.len := Nat.add_sub_of_le (s.pos_lt_iff.2 hlt).le
  have hdrop : s.remaining.drop (8 * s.cfg.len - s.pos) = [(resetSym s.cfg.k).pack] := by
    rw [State.remaining_data hb hp, List.drop_drop, hend, frame_drop_data]
  rw [State.dataWords_eq_take hb hp hend.le, ← hdrop, List.take_append_drop]

/-! ### The closed form (R127) -/

/-- The session as R127's table has it: its phase, its position in the buffer, BUSY. -/
structure SessionPoint where
  phase : Phase
  pos : Nat
  busy : Bool

/-- The table of R127: the session that an ENCODE of `space` leaves. -/
def State.encodePoint (s : State) (space : Nat) : SessionPoint :=
  if s.remaining.length ≤ space then ⟨.data, 0, false⟩
  else if s.phase = .data ∧ space + 1 < s.remaining.length then ⟨.data, s.pos + space, true⟩
  else ⟨.reset, 0, true⟩

/-- The response of R127: COMPLETE with what was lacking, or FULL with the space. -/
def State.encodeRsp (s : State) (space : Nat) : Response :=
  if s.remaining.length ≤ space then rspComplete s.remaining.length else rspFull space

/-- The state an ENCODE of `space` leaves in a session: the table's session, the symbols lacking as far as the space
goes and the response in the output, and everything else as it was (R127). -/
def State.encoded (s : State) (space : Nat) : State :=
  { s with
    phase := (s.encodePoint space).phase
    byteIdx := BitVec.ofNat 18 ((s.encodePoint space).pos / 8)
    bitIdx := BitVec.ofNat 3 ((s.encodePoint space).pos % 8)
    busy := (s.encodePoint space).busy
    out := s.out ++ (s.remaining.take space).map .symbol ++ [.response .pipeline (s.encodeRsp space).pack] }

/-- With space for all that is lacking, the session ends. -/
theorem State.encoded_complete {space : Nat} (h : s.remaining.length ≤ space) :
    s.encoded space =
      { s with
        phase := .data, byteIdx := 0, bitIdx := 0, busy := false
        out := s.out ++ s.remaining.map .symbol ++ [.response .pipeline (rspComplete s.remaining.length).pack] } := by
  simp [State.encoded, State.encodePoint, State.encodeRsp, h, List.take_of_length_le]

/-- With space for all but RESET_SYM, the session is left in phase Reset. -/
theorem State.encoded_toReset (hb : s.busy = true) {space : Nat} (h : space + 1 = s.remaining.length) :
    s.encoded space =
      { s with
        phase := .reset, byteIdx := 0, bitIdx := 0
        out := s.out ++ (s.remaining.take space).map .symbol ++ [.response .pipeline (rspFull space).pack] } := by
  simp [State.encoded, State.encodePoint, State.encodeRsp, ← h, hb]

/-- With less space than that, which only phase Data leaves open, the place moves on by the space. -/
theorem State.encoded_yield (hb : s.busy = true) (hp : s.phase = .data) {space : Nat}
    (h : space + 1 < s.remaining.length) :
    s.encoded space =
      { s with
        byteIdx := BitVec.ofNat 18 ((s.pos + space) / 8), bitIdx := BitVec.ofNat 3 ((s.pos + space) % 8)
        out := s.out ++ (s.remaining.take space).map .symbol ++ [.response .pipeline (rspFull space).pack] } := by
  have hshort : ¬ s.remaining.length ≤ space := by omega
  simp [State.encoded, State.encodePoint, State.encodeRsp, hshort, h, hp, hb]

/-- The response word as a number: NSYM is the smaller of space and lack, which the 16 bits of space bound. -/
theorem State.encodeRsp_toNat (s : State) (space : Half) :
    (s.encodeRsp space.toNat).pack.toNat =
      min space.toNat s.remaining.length + (if s.remaining.length ≤ space.toNat then 2 ^ 17 else 2 ^ 16) := by
  have hspace := space.isLt
  unfold State.encodeRsp
  split
  · rw [rspComplete_toNat (by omega)]
    omega
  · rw [rspFull_toNat hspace]
    omega

/-- BYTE_IDX and BIT_IDX hold every position of the largest buffer, which has 3 × 65535 bytes (R26). -/
theorem pos_of_place {q : Nat} (h : q < 8 * (3 * 65535)) :
    8 * (BitVec.ofNat 18 (q / 8)).toNat + (BitVec.ofNat 3 (q % 8)).toNat = q := by
  simp only [BitVec.toNat_ofNat]
  omega

/-- The position of the table is inside the buffer. -/
theorem State.encodePoint_pos_lt (hs : s.Inv) (hb : s.busy = true) (space : Nat) :
    (s.encodePoint space).pos < 8 * s.cfg.len := by
  obtain ⟨-, ⟨hlt, -⟩, -⟩ := hs
  have hpos := s.pos_lt_iff.2 hlt
  unfold State.encodePoint
  split_ifs with hall hdata
  · exact Nat.zero_lt_of_lt hpos
  · have hlen := State.length_remaining_data hb hdata.1 hlt
    show s.pos + space < _
    omega
  · exact Nat.zero_lt_of_lt hpos

theorem State.encoded_pos (hs : s.Inv) (hb : s.busy = true) (space : Nat) :
    (s.encoded space).pos = (s.encodePoint space).pos := by
  have hlt := State.encodePoint_pos_lt hs hb space
  obtain ⟨⟨-, hleds, -⟩, -⟩ := hs
  have hlen : s.cfg.len = 3 * s.cfg.numLeds := rfl
  exact pos_of_place (by omega)

/-- ENCODE in phase Data: inside the data, with its last symbol, and beyond it are the rows of the table. -/
theorem exec_encode_eq_of_data (space : Half) (hb : s.busy = true) (hp : s.phase = .data)
    (hlt : s.byteIdx.toNat < s.cfg.len) : exec (.encode space) s = .next (s.encoded space.toNat) := by
  have hpos := s.pos_lt_iff.2 hlt
  have hlen := State.length_remaining_data hb hp hlt
  rw [exec_encode_data space hb hp]
  rcases Nat.lt_trichotomy space.toNat (8 * s.cfg.len - s.pos) with h | h | h
  · rw [encodeData_yield hlt h, State.dataWords_eq_take hb hp (by omega), State.encoded_yield hb hp (by omega)]
  · rw [encodeData_toReset hlt h, State.dataWords_eq_take hb hp (by omega), State.encoded_toReset hb (by omega)]
  · rw [encodeData_complete hlt h, ← hlen, State.encoded_complete (by omega),
      ← State.dataWords_append_reset hb hp hlt, List.map_append, List.append_assoc s.out]
    rfl

/-- ENCODE in phase Reset: without space the session stays there, and any space ends it. -/
theorem exec_encode_eq_of_reset (space : Half) (hb : s.busy = true) (hp : s.phase = .reset)
    (hplace : s.byteIdx = 0 ∧ s.bitIdx = 0) : exec (.encode space) s = .next (s.encoded space.toNat) := by
  obtain ⟨hbyte, hbit⟩ := hplace
  have hlen := State.length_remaining_reset hb hp
  rw [exec_encode_reset space hb hp]
  rcases Nat.eq_zero_or_pos space.toNat with h | h
  · rw [encodeReset_noSlot h.le, State.encoded_toReset hb (by omega), ← hp, ← hbyte, ← hbit]
    simp [h]
  · rw [encodeReset_slot h, State.encoded_complete (by omega), hlen, State.remaining_reset hb hp, ← hbyte, ← hbit]
    rfl

/-- ENCODE in a session, every case (R127). -/
theorem exec_encode_eq (space : Half) (hs : s.Inv) (hb : s.busy = true) :
    exec (.encode space) s = .next (s.encoded space.toNat) := by
  obtain ⟨-, ⟨hlt, hplace, -⟩, -⟩ := hs
  cases hp : s.phase with
  | data => exact exec_encode_eq_of_data space hb hp hlt
  | reset => exact exec_encode_eq_of_reset space hb hp (hplace hp)

end Sys2Proof.Machine
end

section
/-!
PROOFS. The obligations on the closed form of ENCODE and on ENCRST (42_protocol_encoder.md).
-/

namespace Sys2Proof.Machine

/-- Settles O40: ENCODE leaves `State.encoded`, whose response and session are R127's. -/
theorem encodeClosedForm : Obligations.EncodeClosedForm := by
  refine ⟨fun space s hb => exec_encode_idle space hb, fun space s W hs hb hW => ?_⟩
  have ⟨_, ⟨hlt, _⟩, _⟩ := hs
  obtain rfl : W = s.remaining.length := hW.trans (State.length_remaining hb hlt).symm
  obtain ⟨hpos, hle⟩ := State.length_remaining_bounds hb hlt
  refine ⟨hpos, hle, rfl, s.encoded space.toNat, (s.encodeRsp space.toNat).pack, exec_encode_eq space hs hb, rfl,
    s.encodeRsp_toNat space, rfl, rfl, rfl, rfl, rfl, rfl, ?_⟩
  rw [State.encoded_pos hs hb]
  simp only [State.encoded, State.encodePoint]
  split_ifs <;> exact ⟨rfl, rfl, rfl⟩

/-- Settles O28: ENCRST leaves one session whatever it found, the initial one, which an idle state has already. -/
theorem encrstAbandonsTheSession : Obligations.EncrstAbandonsTheSession := by
  refine ⟨exec_encrst_eq, fun s => exec_encrst_idle, fun s t u ht hu => ?_⟩
  rw [exec_encrst_eq] at ht hu
  cases ht
  cases hu
  rfl

/-- Settles O39: the pipeline port's ready signal reads nothing, and ENCODE with BUSY = 0 only answers. -/
theorem encodeIsIdleWithoutAFlush : Obligations.EncodeIsIdleWithoutAFlush :=
  ⟨State.ready_pipeline, fun space _ => exec_encode_idle space⟩

end Sys2Proof.Machine
end

section
/-!
SUPPORT. NOP, SETBRT and FLUSH in closed form, and what can change BUSY (43_driver_control.md R150 to R152, R156).
-/

namespace Sys2Proof.Machine

/-! ### The control commands (R150, R151, R152) -/

/-- The success answer adds the word 0x0000_0000 to the output history, and changes nothing else (R66). -/
theorem State.respond_rspOk (s : State) (p : Port) :
    s.respond p rspOk = { s with out := s.out ++ [.response p 0x00000000] } := by
  rw [State.respond, rspOk_pack]

theorem exec_nop_eq (s : State) : exec .nop s = .next { s with out := s.out ++ [.response .host 0x00000000] } := by
  show Host.Outcome.next (s.respond .host rspOk) = _
  rw [State.respond_rspOk]

theorem exec_setbrt_eq (lvl : Byte) (s : State) :
    exec (.setbrt lvl) s = .next { s with brt := lvl, out := s.out ++ [.response .host 0x00000000] } := by
  show Host.Outcome.next ((s.setBrt lvl).respond .host rspOk) = _
  rw [State.respond_rspOk]
  rfl

/-- The session of a FLUSH: place 0, phase Data, BUSY 1, and the success answer (R152). -/
def State.flushed (s : State) : State :=
  { s with
    phase := .data, byteIdx := 0, bitIdx := 0, busy := true
    out := s.out ++ [.response .host 0x00000000] }

theorem exec_flush_eq (s : State) : exec .flush s = .next s.flushed := by
  show Host.Outcome.next (((restartSession s).setBusy true).respond .host rspOk) = _
  rw [State.respond_rspOk]
  rfl

/-- At place 0 nothing of the frame has been emitted, so all of it is lacking. -/
theorem State.remaining_flushed (s : State) : s.flushed.remaining = frame s.cfg.k s.bytes :=
  State.remaining_data (s := s.flushed) rfl rfl

/-! ### The Host's turn at a word once BUSY = 0 (R156) -/

variable {s t : State} {p : Port} {w : CmdWord}

theorem step_host_accepted {q : List (Option CmdWord)} {r : List Agent} (hw : s.cfg.WellFormed)
    (hs : s.sched = .host :: r) (hp : s.hostPort = some w :: q) (hb : s.busy = false) :
    step s = perform .host w { s with sched := r, hostPort := q } := by
  rw [step_portTurn (p := .host) hw hs, portTurn_ready (State.presented_host hp) (by rw [State.ready_host, hb]; rfl),
    State.accept_host_eq hs hp]

/-! ### What changes BUSY -/

/-- A presented word stands at the head of its port (R75). -/
theorem State.portInput_of_presented (h : s.presented p = some w) : ∃ q, s.portInput p = some w :: q := by
  unfold State.presented at h
  split at h
  · cases h
  · rename_i q hq
    exact ⟨q, h ▸ hq⟩

/-- Of the four kinds of turn, only one that performs a command can change BUSY. -/
theorem portTurn_changes_busy (h : portTurn p s = .next t) (hb : t.busy ≠ s.busy) :
    ∃ w i, s.presented p = some w ∧ s.ready p = true ∧ decode p w = .ok i ∧ exec i (s.accept p) = .next t := by
  obtain ⟨-, rfl⟩ | ⟨w, -, -, rfl⟩ | ⟨w, e, -, -, -, rfl⟩ | ⟨w, i, hp, hr, hd, he⟩ := portTurn_cases h
  · exact absurd (State.idleTurn_busy s p) hb
  · exact absurd (State.hold_busy s) hb
  · exact absurd (State.accept_busy s p) hb
  · exact ⟨w, i, hp, hr, hd, he⟩

/-- An ENCODE leaves BUSY 1 unless it has space for all that is lacking (R127). -/
theorem State.encoded_busy_eq_false_iff (space : Nat) :
    (s.encoded space).busy = false ↔ s.remaining.length ≤ space := by
  simp only [State.encoded, State.encodePoint]
  split_ifs with hall <;> simp [hall]

/-- The pipeline commands that end a session: ENCRST, and the ENCODE that completes the frame. -/
theorem exec_ends_session {i : Instr} (hi : i.port = .pipeline) (hs : s.Inv) (hb : s.busy = true)
    (h : exec i s = .next t) (ht : t.busy = false) :
    i = .encrst ∨ ∃ space, i = .encode space ∧ s.remaining.length ≤ space.toNat := by
  cases i with
  | encrst => exact .inl rfl
  | encode space =>
    rw [exec_encode_eq space hs hb] at h
    cases h
    exact .inr ⟨space, rfl, (State.encoded_busy_eq_false_iff _).1 ht⟩
  | nop | set | fill | setbrt | flush => cases hi

/-- A decoded command belongs to the port its word stands on (R65). -/
theorem port_of_decode_ok {i : Instr} (h : decode p w = .ok i) : i.port = p := by
  obtain ⟨-, o, -, rfl, rfl⟩ := decode_ok h
  exact o.instr_port w

/-- A step that makes BUSY 0 is a reset, or the Pipeline's turn at an ENCRST or a completing ENCODE: the Host's turns
cannot, for its port is not ready (R156). -/
theorem step_ends_session (hs : s.Inv) (hb : s.busy = true) (h : step s = .next t) (ht : t.busy = false) :
    (∃ r, s.sched = .reset :: r) ∨
    (∃ w q r, s.sched = .pipeline :: r ∧ s.pipePort = some w :: q ∧
      (decode .pipeline w = .ok .encrst ∨
        ∃ space, decode .pipeline w = .ok (.encode space) ∧ s.remaining.length ≤ space.toNat)) := by
  obtain ⟨-, ⟨-, rfl⟩ | ⟨r, hr, -⟩ | ⟨p, r, hr, hturn⟩⟩ := step_cases h
  · exact absurd (hb.symm.trans ht) (by decide)
  · exact .inl ⟨r, hr⟩
  · obtain ⟨w, i, hp, hready, hd, he⟩ := portTurn_changes_busy hturn (by rw [hb, ht]; decide)
    cases p with
    | host => rw [State.ready_host, hb] at hready; cases hready
    | pipeline =>
      obtain ⟨q, hq⟩ := State.portInput_of_presented hp
      refine .inr ⟨w, q, r, hr, hq, ?_⟩
      -- Acceptance moves the port and the schedule on; the session and the buffer stay as they are.
      have hacc : (s.accept .pipeline).Inv := hs
      obtain rfl | ⟨space, rfl, hspace⟩ := exec_ends_session (port_of_decode_ok hd) hacc hb he ht
      · exact .inl hd
      · exact .inr ⟨space, hd, hspace⟩

end Sys2Proof.Machine
end

section
/-!
PROOFS. The obligations on the control commands and the host port's hold (43_driver_control.md).
-/

namespace Sys2Proof.Machine

/-- Settles O13: the ready signals, the Host's turn at each value of BUSY, and the steps that make BUSY 0. -/
theorem hostWordIsHeldWhileBusy : Obligations.HostWordIsHeldWhileBusy :=
  ⟨fun s => ⟨s.ready_host, s.ready_pipeline⟩,
    fun _ _ _ _ hw hs hp => ⟨step_host_held hw hs hp, step_host_accepted hw hs hp⟩,
    fun _ _ => step_ends_session⟩

/-- Settles O25: NOP only answers, whatever BUSY is. -/
theorem nopChangesNothing : Obligations.NopChangesNothing := fun s _ => exec_nop_eq s

/-- Settles O26: SETBRT writes BRT and answers, whatever BUSY is. -/
theorem setbrtStoresTheLevel : Obligations.SetbrtStoresTheLevel := fun lvl s _ => exec_setbrt_eq lvl s

/-- Settles O27: FLUSH leaves `State.flushed`, which lacks the whole frame. -/
theorem flushStartsASession : Obligations.FlushStartsASession :=
  fun s _ => ⟨s.flushed, exec_flush_eq s, rfl, s.remaining_flushed⟩

end Sys2Proof.Machine
end

section
/-!
SUPPORT. The success answer of every command, and the next state of every step, under the invariants of R28
(60_exceptions.md R170).
-/

namespace Sys2Proof.Machine

variable {i : Instr} {s t : State}

/-! ### Every command answers success -/

/-- The command has a next state, whose last output is a response on the command's own port with ERR = 0 (R66). -/
def Succeeds (i : Instr) (s : State) : Prop :=
  ∃ t evs w, exec i s = .next t ∧ t.out = s.out ++ evs ++ [.response i.port w] ∧ w.getLsbD 18 = false

/-- The success word 0x0000_0000, with no symbol before it, is the answer of every command but a busy ENCODE (R66). -/
theorem Succeeds.of_zero_word (h : exec i s = .next t) (hout : t.out = s.out ++ [.response i.port 0x00000000]) :
    Succeeds i s :=
  ⟨t, [], 0, h, by rw [hout, List.append_nil], rfl⟩

/-- FULL and COMPLETE, the two answers of an ENCODE in a session, leave ERR at 0 (R127). -/
theorem State.encodeRsp_err (s : State) (space : Nat) : (s.encodeRsp space).err = false := by
  unfold State.encodeRsp
  split <;> rfl

theorem encode_succeeds (space : Half) (hs : s.Inv) : Succeeds (.encode space) s := by
  cases hb : s.busy with
  | false => exact .of_zero_word (exec_encode_idle space hb) rfl
  | true =>
    have herr : (s.encodeRsp space.toNat).pack.getLsbD 18 = false := by
      rw [Response.getLsbD_pack, State.encodeRsp_err]
      rfl
    exact ⟨_, _, _, exec_encode_eq space hs hb, rfl, herr⟩

/-- Every command with every operand: the indices of SET and FILL are clamped, ENCODE yields where its space ends, and
the others read nothing that could be amiss (R170, R171). -/
theorem exec_succeeds (i : Instr) (hs : s.Inv) : Succeeds i s := by
  cases i with
  | nop => exact .of_zero_word (exec_nop_eq s) rfl
  | set idx r g b =>
    obtain ⟨m, hm, -⟩ := exec_set_spec hs idx r g b
    exact .of_zero_word hm rfl
  | fill idx cnt r g b =>
    obtain ⟨m, hm, -⟩ := exec_fill_spec hs idx cnt r g b
    exact .of_zero_word hm rfl
  | setbrt lvl => exact .of_zero_word (exec_setbrt_eq lvl s) rfl
  | flush => exact .of_zero_word (exec_flush_eq s) rfl
  | encode space => exact encode_succeeds space hs
  | encrst => exact .of_zero_word (exec_encrst_eq s) rfl

/-! ### Every step has a next state -/

/-- Acceptance moves the port and the schedule on, and the invariants read neither. -/
theorem State.accept_inv (p : Port) (hs : s.Inv) : (s.accept p).Inv := by
  cases p <;> exact hs

/-- An accepted word is performed, or answered ERR (R172). -/
theorem perform_next (p : Port) (w : CmdWord) (hs : s.Inv) : ∃ t, perform p w s = .next t := by
  unfold perform
  cases decode p w with
  | ok i =>
    obtain ⟨t, -, -, ht, -⟩ := exec_succeeds i hs
    exact ⟨t, ht⟩
  | error e => exact ⟨_, rfl⟩

/-- A turn with nothing presented is idle, one at a port that is not ready is held, any other performs its word. -/
theorem portTurn_next (p : Port) (hs : s.Inv) : ∃ t, portTurn p s = .next t := by
  cases hp : s.presented p with
  | none => exact ⟨s.idleTurn p, by rw [portTurn, hp]⟩
  | some w =>
    cases hr : s.ready p with
    | false => exact ⟨_, portTurn_not_ready hp hr⟩
    | true =>
      rw [portTurn_ready hp hr]
      exact perform_next p w (s.accept_inv p hs)

/-- With no agent due nothing happens, a reset always goes through, and the other steps are turns (R8). -/
theorem step_next (hs : s.Inv) : ∃ t, step s = .next t := by
  have ⟨hwf, _⟩ := hs
  rw [step, if_pos hwf]
  cases s.sched with
  | nil => exact ⟨s, rfl⟩
  | cons a r =>
    cases a with
    | host => exact portTurn_next .host hs
    | pipeline => exact portTurn_next .pipeline hs
    | reset => exact ⟨applyReset s, rfl⟩

end Sys2Proof.Machine
end

section
/-!
PROOFS. The obligation that the block raises no exception (60_exceptions.md).
-/

namespace Sys2Proof.Machine

/-- Settles O20: a step stops only where a command does, and under the invariants every command answers with ERR = 0. -/
theorem nothingTraps : Obligations.NothingTraps :=
  ⟨fun _ => step_next, fun i _ => exec_succeeds i⟩

end Sys2Proof.Machine
end

section
/-!
SUPPORT. A flush that is offered no space: what its steps can do, and what any number of them leave (42_protocol_encoder.md
R132, 70_reset_and_hazards.md R196).
-/

namespace Sys2Proof.Machine

variable {s t u : State}

/-! ### ENCODE without space -/

/-- Without space an ENCODE emits nothing and the session stays where it is, in either phase (R132). -/
theorem State.encoded_zero (hs : s.Inv) (hb : s.busy = true) :
    s.encoded 0 = { s with out := s.out ++ [.response .pipeline (rspFull 0).pack] } := by
  obtain ⟨-, ⟨hlt, hplace, -⟩, -⟩ := hs
  cases hp : s.phase with
  | data =>
    have hlen := State.length_remaining_data hb hp hlt
    have hpos := s.pos_lt_iff.2 hlt
    have hbit := s.bitIdx.isLt
    have hbyteIdx : BitVec.ofNat 18 ((s.pos + 0) / 8) = s.byteIdx :=
      BitVec.eq_of_toNat_eq (by simp only [State.pos, BitVec.toNat_ofNat]; omega)
    have hbitIdx : BitVec.ofNat 3 ((s.pos + 0) % 8) = s.bitIdx :=
      BitVec.eq_of_toNat_eq (by simp only [State.pos, BitVec.toNat_ofNat]; omega)
    rw [State.encoded_yield hb hp (by omega), hbyteIdx, hbitIdx]
    simp [hp]
  | reset =>
    obtain ⟨hbyte, hbit⟩ := hplace hp
    rw [State.encoded_toReset hb (State.length_remaining_reset hb hp).symm, ← hp, ← hbyte, ← hbit]
    simp

/-! ### The starved flush -/

/-- A flush that gets no space: a host command is held, no reset is due, and the Pipeline will present nothing but
`ENCODE 0` (R196). -/
structure State.Starved (s : State) : Prop where
  inv : s.Inv
  busy : s.busy = true
  held : ∃ w q, s.hostPort = some w :: q
  noReset : ∀ a ∈ s.sched, a ≠ .reset
  noSpace : ∀ x ∈ s.pipePort, x = none ∨ ∃ v, x = some v ∧ decode .pipeline v = .ok (.encode 0)

/-- From `s` to `t` only turns, moments of the pipeline port and responses have passed: the block, the host port and the
symbol stream are as they were. -/
def State.WaitsTo (s t : State) : Prop :=
  ∃ r q o, r ⊆ s.sched ∧ q ⊆ s.pipePort ∧ symbolsOf o = symbolsOf s.out ∧
    t = { s with sched := r, pipePort := q, out := o }

theorem State.WaitsTo.refl (s : State) : s.WaitsTo s :=
  ⟨s.sched, s.pipePort, s.out, List.Subset.refl _, List.Subset.refl _, rfl, rfl⟩

theorem State.WaitsTo.trans (hst : s.WaitsTo t) (htu : t.WaitsTo u) : s.WaitsTo u := by
  obtain ⟨r, q, o, hr, hq, ho, rfl⟩ := hst
  obtain ⟨r', q', o', hr', hq', ho', rfl⟩ := htu
  exact ⟨r', q', o', List.Subset.trans hr' hr, List.Subset.trans hq' hq, ho'.trans ho, rfl⟩

/-- Waiting brings no reset and no space that was not to come. -/
theorem State.Starved.of_waitsTo (hs : s.Starved) (h : s.WaitsTo t) : t.Starved := by
  obtain ⟨r, q, o, hr, hq, -, rfl⟩ := h
  exact ⟨hs.inv, hs.busy, hs.held, fun a ha => hs.noReset a (hr ha), fun x hx => hs.noSpace x (hq hx)⟩

/-- The only word a starved flush's pipeline port can present is `ENCODE 0`. -/
theorem State.Starved.decode_presented (hs : s.Starved) {w : CmdWord} (hp : s.presented .pipeline = some w) :
    decode .pipeline w = .ok (.encode 0) := by
  obtain ⟨q, (hq : s.pipePort = some w :: q)⟩ := State.portInput_of_presented hp
  obtain hnone | ⟨v, hv, hd⟩ := hs.noSpace (some w) (hq ▸ List.mem_cons_self)
  · cases hnone
  · cases hv
    exact hd

/-- The Host's turn is spent at the held word (R156). -/
theorem State.Starved.host_turn_waits (hs : s.Starved) (h : portTurn .host s = .next t) : s.WaitsTo t := by
  obtain ⟨w, q, hw⟩ := hs.held
  rw [portTurn_not_ready (State.presented_host hw) (by rw [State.ready_host, hs.busy]; rfl)] at h
  cases h
  exact ⟨s.sched.tail, s.pipePort, s.out, List.tail_subset _, List.Subset.refl _, rfl, rfl⟩

/-- The Pipeline's turn presents nothing, or an `ENCODE 0` that only answers (R132). -/
theorem State.Starved.pipeline_turn_waits (hs : s.Starved) (h : portTurn .pipeline s = .next t) : s.WaitsTo t := by
  obtain ⟨-, rfl⟩ | ⟨w, -, hr, -⟩ | ⟨w, e, hp, -, hd, -⟩ | ⟨w, i, hp, -, hd, he⟩ := portTurn_cases h
  · exact ⟨s.sched.tail, s.pipePort.tail, s.out, List.tail_subset _, List.tail_subset _, rfl, rfl⟩
  · cases hr
  · cases hd.symm.trans (hs.decode_presented hp)
  · cases hd.symm.trans (hs.decode_presented hp)
    have hacc : (s.accept .pipeline).Inv := s.accept_inv .pipeline hs.inv
    have hzero := (exec_encode_eq 0 hacc hs.busy).trans (congrArg _ (State.encoded_zero hacc hs.busy))
    cases he.symm.trans hzero
    exact ⟨s.sched.tail, s.pipePort.tail, _, List.tail_subset _, List.tail_subset _, by simp, rfl⟩

theorem State.Starved.step_waits (hs : s.Starved) (h : step s = .next t) : s.WaitsTo t := by
  obtain ⟨-, ⟨-, rfl⟩ | ⟨r, hr, -⟩ | ⟨p, r, -, hturn⟩⟩ := step_cases h
  · exact .refl _
  · exact absurd rfl (hs.noReset .reset (hr ▸ List.mem_cons_self))
  · cases p with
    | host => exact hs.host_turn_waits hturn
    | pipeline => exact hs.pipeline_turn_waits hturn

/-- A starved flush has a next state after every number of steps, and all of them only wait. -/
theorem State.Starved.run_waits (n : Nat) (hs : s.Starved) :
    ∃ t, Sys2Proof.core.run n s = .next t ∧ s.WaitsTo t := by
  induction n generalizing s with
  | zero => exact ⟨s, rfl, .refl s⟩
  | succ n ih =>
    obtain ⟨t, ht⟩ := step_next hs.inv
    have hwait := hs.step_waits ht
    obtain ⟨u, hu, hrest⟩ := ih (hs.of_waitsTo hwait)
    exact ⟨u, (core_run_succ ht n).trans hu, hwait.trans hrest⟩

end Sys2Proof.Machine
end

section
/-!
PROOFS. The obligation on the unbounded wait (70_reset_and_hazards.md).
-/

namespace Sys2Proof.Machine

/-- Settles O14: a starved flush only waits, and waiting leaves the block, the host port and the symbols as they are. -/
theorem aFlushWithoutSpaceHangs : Obligations.AFlushWithoutSpaceHangs := by
  intro n s w q hs hb hheld hreset hspace
  have hstarved : s.Starved := ⟨hs, hb, ⟨w, q, hheld⟩, hreset, hspace⟩
  obtain ⟨t, ht, r, q', o, -, -, ho, rfl⟩ := hstarved.run_waits n
  exact ⟨_, ht, hb, rfl, rfl, rfl, rfl, rfl, rfl, ho⟩

end Sys2Proof.Machine
end

section
/-!
SUPPORT. The encoder by the rows of the opcode map, a word by its fields, and the assembler's lines (30_encoding.md R61
to R65, R76, R77).
-/

namespace Sys2Proof

/-! ### The word the encoder writes, by its row (R64, R76) -/

@[simp] theorem Instr.row_port (i : Instr) : i.row.port = i.port := by cases i <;> rfl

@[simp] theorem cmdRsv_encode (i : Instr) : cmdRsv (encode i) = 0 := by cases i <;> exact cmdRsv_cmdPack ..

@[simp] theorem cmdOp_encode (i : Instr) : cmdOp (encode i) = i.row.code := by cases i <;> exact cmdOp_cmdPack ..

/-- Every operand is read back from the field it was written to (R62). -/
@[simp] theorem Instr.row_instr_encode (i : Instr) : i.row.instr (Sys2Proof.encode i) = i := by
  cases i <;> simp [Instr.row, Opcode.instr, Sys2Proof.encode]

/-- On a command's own port its word decodes to the command (R65). -/
theorem decode_encode (i : Instr) : decode i.port (encode i) = .ok i := by
  have h := decode_of_code (cmdRsv_encode i) (cmdOp_encode i)
  rwa [Instr.row_port, Instr.row_instr_encode] at h

/-- On the other port it is ILLEGAL (R67 (c), (d)). -/
theorem decode_encode_wrongPort {i : Instr} {p : Port} (hp : p ≠ i.port) :
    decode p (encode i) = .error .wrongPort := by
  refine decode_of_wrong_port (o := i.row) (cmdRsv_encode i) ?_ ?_
  · rw [cmdOp_encode, opcodeOf_code]
  · rw [Instr.row_port]
    exact hp.symm

/-! ### A word and its fields (R61) -/

/-- The seven fields are the whole word. -/
theorem CmdWord.ext_fields {v w : CmdWord} (hop : cmdOp v = cmdOp w) (hrsv : cmdRsv v = cmdRsv w)
    (hidx : cmdIdx v = cmdIdx w) (hcnt : cmdCnt v = cmdCnt w) (hr : cmdR v = cmdR w) (hg : cmdG v = cmdG w)
    (hb : cmdB v = cmdB w) : v = w := by
  rw [← BitVec.toNat_inj] at *
  rw [cmdOp_toNat, cmdOp_toNat] at hop
  rw [cmdRsv_toNat, cmdRsv_toNat] at hrsv
  rw [cmdIdx_toNat, cmdIdx_toNat] at hidx
  rw [cmdCnt_toNat, cmdCnt_toNat] at hcnt
  rw [cmdR_toNat, cmdR_toNat] at hr
  rw [cmdG_toNat, cmdG_toNat] at hg
  rw [cmdB_toNat, cmdB_toNat] at hb
  omega

section MaskedFields

variable (v w : CmdWord)

/-! A mask acts on each field by itself. -/

theorem cmdOp_and : cmdOp (v &&& w) = cmdOp v &&& cmdOp w := BitVec.extractLsb'_and
theorem cmdRsv_and : cmdRsv (v &&& w) = cmdRsv v &&& cmdRsv w := BitVec.extractLsb'_and
theorem cmdIdx_and : cmdIdx (v &&& w) = cmdIdx v &&& cmdIdx w := BitVec.extractLsb'_and
theorem cmdCnt_and : cmdCnt (v &&& w) = cmdCnt v &&& cmdCnt w := BitVec.extractLsb'_and
theorem cmdR_and : cmdR (v &&& w) = cmdR v &&& cmdR w := BitVec.extractLsb'_and
theorem cmdG_and : cmdG (v &&& w) = cmdG v &&& cmdG w := BitVec.extractLsb'_and
theorem cmdB_and : cmdB (v &&& w) = cmdB v &&& cmdB w := BitVec.extractLsb'_and

end MaskedFields

/-- The bits of OP, RSV and the fields that a row uses; the others are the `x` bits of spec/opcode_table.json. -/
def Opcode.usedBits : Opcode → CmdWord
  | .nop => 0xFF00000000000000
  | .set => 0xFFFFFF0000FFFFFF
  | .fill => 0xFFFFFFFFFFFFFFFF
  | .setbrt => 0xFF000000000000FF
  | .flush => 0xFF00000000000000
  | .encode => 0xFF0000FFFF000000
  | .encrst => 0xFF00000000000000

/-- Each operand field is used as a whole or not at all (R62). -/
theorem Opcode.usedBits_fields (o : Opcode) :
    cmdIdx o.usedBits = (if o = .set ∨ o = .fill then BitVec.allOnes 16 else 0) ∧
    cmdCnt o.usedBits = (if o = .fill ∨ o = .encode then BitVec.allOnes 16 else 0) ∧
    cmdR o.usedBits = (if o = .set ∨ o = .fill then BitVec.allOnes 8 else 0) ∧
    cmdG o.usedBits = (if o = .set ∨ o = .fill then BitVec.allOnes 8 else 0) ∧
    cmdB o.usedBits = (if o = .set ∨ o = .fill ∨ o = .setbrt then BitVec.allOnes 8 else 0) := by
  cases o <;> decide

/-- A field under a mask that keeps it as a whole or not at all. -/
theorem and_ite_allOnes {n : Nat} (x : BitVec n) (used : Prop) [Decidable used] :
    x &&& (if used then BitVec.allOnes n else 0) = if used then x else 0 := by
  split_ifs
  · exact BitVec.and_allOnes
  · exact BitVec.and_zero

/-- Decoding a word and encoding the command gives the word with its unused bits 0. -/
theorem encode_instr_eq_and {o : Opcode} {w : CmdWord} (hr : cmdRsv w = 0) (ho : cmdOp w = o.code) :
    encode (o.instr w) = w &&& o.usedBits := by
  have hop : cmdOp o.usedBits = BitVec.allOnes 4 := by cases o <;> decide
  obtain ⟨hidx, hcnt, hred, hgreen, hblue⟩ := o.usedBits_fields
  refine CmdWord.ext_fields ?_ ?_ ?_ ?_ ?_ ?_ ?_
  · rw [cmdOp_encode, Opcode.row_instr, cmdOp_and, hop, BitVec.and_allOnes, ho]
  · rw [cmdRsv_encode, cmdRsv_and, hr]
    exact BitVec.zero_and.symm
  · rw [cmdIdx_and, hidx, and_ite_allOnes]
    cases o <;> simp [encode, Opcode.instr]
  · rw [cmdCnt_and, hcnt, and_ite_allOnes]
    cases o <;> simp [encode, Opcode.instr]
  · rw [cmdR_and, hred, and_ite_allOnes]
    cases o <;> simp [encode, Opcode.instr]
  · rw [cmdG_and, hgreen, and_ite_allOnes]
    cases o <;> simp [encode, Opcode.instr]
  · rw [cmdB_and, hblue, and_ite_allOnes]
    cases o <;> simp [encode, Opcode.instr]

/-- A command word as the sum of its shifted fields (R61). -/
theorem cmdPack_toNat (op : BitVec 4) (idx cnt : Half) (r g b : Byte) :
    (cmdPack op idx cnt r g b).toNat =
      op.toNat * 2 ^ 60 + idx.toNat * 2 ^ 40 + cnt.toNat * 2 ^ 24 + r.toNat * 2 ^ 16 + g.toNat * 2 ^ 8 + b.toNat := by
  have h : (cmdPack op idx cnt r g b).toNat =
      (op ++ (0 : BitVec 4) ++ idx ++ cnt ++ r ++ g ++ b : BitVec (4 + 4 + 16 + 16 + 8 + 8 + 8)).toNat := rfl
  have h0 : (0 : BitVec 4).toNat = 0 := rfl
  rw [h]
  simp only [Machine.append_toNat, h0]
  omega

/-- A command word from numbers in the range of their fields. -/
theorem cmdPack_ofNat {op : BitVec 4} {idx cnt r g b : Nat} (hidx : idx < 65536) (hcnt : cnt < 65536) (hr : r < 256)
    (hg : g < 256) (hb : b < 256) :
    cmdPack op (BitVec.ofNat 16 idx) (BitVec.ofNat 16 cnt) (BitVec.ofNat 8 r) (BitVec.ofNat 8 g) (BitVec.ofNat 8 b) =
      BitVec.ofNat 64 (op.toNat * 2 ^ 60 + idx * 2 ^ 40 + cnt * 2 ^ 24 + r * 2 ^ 16 + g * 2 ^ 8 + b) := by
  have hop := op.isLt
  apply BitVec.eq_of_toNat_eq
  rw [cmdPack_toNat]
  simp only [BitVec.toNat_ofNat]
  omega

end Sys2Proof

namespace Sys2Proof.Machine

/-! ### The assembler's lines (R76, R77) -/

/-- A line with an operand out of its range is refused. -/
theorem assemble_of_not_wellFormed {l : AsmLine} (hl : l.wellFormed = false) : assemble l = none := by
  simp [assemble, lineInstr, hl]

/-- A line with every operand in range is assembled to the word of its command, any other is refused. -/
theorem assemble_eq_ite {l : AsmLine} {i : Instr} {p : Port} {w : CmdWord} {inRange : Prop} [Decidable inRange]
    (hl : l.wellFormed = true ↔ inRange) (hi : coreInstr (expandLine l) = some i) (hp : i.port = p)
    (hw : inRange → encode i = w) : assemble l = if inRange then some (p, w) else none := by
  split_ifs with h
  · simp [assemble, lineInstr, hl.2 h, hi, hp, hw h]
  · exact assemble_of_not_wellFormed (Bool.eq_false_iff.2 (mt hl.1 h))

/-- A literal of three channels is in range, and is cut into them again (R77). -/
theorem channels_of_literal {r g b : Nat} (hr : r < 256) (hg : g < 256) (hb : b < 256) :
    r * 65536 + g * 256 + b < 16777216 ∧ (r * 65536 + g * 256 + b) / 65536 = r ∧
      (r * 65536 + g * 256 + b) / 256 % 256 = g ∧ (r * 65536 + g * 256 + b) % 256 = b := by
  omega

end Sys2Proof.Machine
end

section
/-!
PROOFS. The obligations on the encoder, the ignored fields and the assembler's words (30_encoding.md).
-/

namespace Sys2Proof.Machine

/-- Settles O8: an encoded word has its command's row, and the row reads every operand back. -/
theorem decodeEncodeAgree : Obligations.DecodeEncodeAgree :=
  fun i => ⟨decode_encode i, fun _ => decode_encode_wrongPort⟩

/-- Settles O7: the masks are the rows' used bits. -/
theorem ignoredFieldsAreDropped : Obligations.IgnoredFieldsAreDropped := by
  intro p w i h
  obtain ⟨hr, o, ho, -, rfl⟩ := decode_ok h
  rw [encode_instr_eq_and hr (code_of_opcodeOf ho).symm]
  cases o <;> rfl

/-- Settles O9: each line's command, packed from numbers in range; a line with one out of range is not well formed. -/
theorem assemblerWordsAreTheirFields : Obligations.AssemblerWordsAreTheirFields := by
  have h16 : 0 < 65536 := by decide
  have h8 : 0 < 256 := by decide
  refine ⟨by decide, fun idx r g b => ?_, fun idx cnt r g b => ?_, fun lvl => ?_, by decide, fun space => ?_,
    by decide⟩
  · refine assemble_eq_ite (by simp [AsmLine.wellFormed, and_assoc]) rfl rfl fun ⟨hidx, hr, hg, hb⟩ => ?_
    exact (cmdPack_ofNat hidx h16 hr hg hb).trans (by simp [Opcode.code])
  · refine assemble_eq_ite (by simp [AsmLine.wellFormed, and_assoc]) rfl rfl fun ⟨hidx, hcnt, hr, hg, hb⟩ => ?_
    exact (cmdPack_ofNat hidx hcnt hr hg hb).trans (by simp [Opcode.code])
  · refine assemble_eq_ite (by simp [AsmLine.wellFormed]) rfl rfl fun hlvl => ?_
    exact (cmdPack_ofNat h16 h16 h8 h8 hlvl).trans (by simp [Opcode.code])
  · refine assemble_eq_ite (by simp [AsmLine.wellFormed]) rfl rfl fun hspace => ?_
    exact (cmdPack_ofNat h16 hspace h8 h8 h8).trans (by simp [Opcode.code])

/-- Settles O10: a literal in range has channels in range and is cut into them; one that is not is refused. -/
theorem pseudoInstructionsExpand : Obligations.PseudoInstructionsExpand := by
  refine ⟨fun idx r g b hr hg hb => ?_, fun idx cnt r g b hr hg hb => ?_, fun idx cnt rgb h => ?_, fun space => ?_,
    fun _ _ => rfl⟩
  · obtain ⟨hlit, er, eg, eb⟩ := channels_of_literal hr hg hb
    simp [assemble, lineInstr, expandLine, AsmLine.wellFormed, *]
  · obtain ⟨hlit, er, eg, eb⟩ := channels_of_literal hr hg hb
    simp [assemble, lineInstr, expandLine, AsmLine.wellFormed, *]
  · have hlit : ¬ rgb < 16777216 := by omega
    exact ⟨assemble_of_not_wellFormed (by simp [AsmLine.wellFormed, hlit]),
      assemble_of_not_wellFormed (by simp [AsmLine.wellFormed, hlit])⟩
  · refine ⟨?_, rfl⟩
    simp [assemble, lineInstr, expandLine, coreInstr]

/-- Settles O4: each word decoded. -/
theorem specWordsDecode : Obligations.SpecWordsDecode := by
  unfold Obligations.SpecWordsDecode
  decide

end Sys2Proof.Machine
end

section
/-!
SUPPORT. What a command can do in any state, met invariants or not: its closed form, its answer, and what BRT has to do
with it (10_state.md R20, R23, 30_encoding.md R66).
-/

namespace Sys2Proof.Machine

variable {i : Instr} {s t : State} {p : Port}

/-! ### SET and FILL in any state -/

theorem memWrite_eq_next {a : Nat} {v : Byte} (h : memWrite s a v = .next t) : ∃ m, t = s.setPix m := by
  unfold memWrite at h
  split at h
  · cases h
    exact ⟨_, rfl⟩
  · cases h

theorem writePixel_eq_next {led : Nat} {c : Colour} (h : writePixel led c s = .next t) : ∃ m, t = s.setPix m := by
  obtain ⟨s1, h1, h⟩ := andThen_eq_next.1 h
  obtain ⟨s2, h2, h3⟩ := andThen_eq_next.1 h
  obtain ⟨_, rfl⟩ := memWrite_eq_next h1
  obtain ⟨_, rfl⟩ := memWrite_eq_next h2
  obtain ⟨m, rfl⟩ := memWrite_eq_next h3
  exact ⟨m, rfl⟩

theorem writePixels_eq_next {leds : List Nat} {c : Colour} (h : writePixels leds c s = .next t) :
    ∃ m, t = s.setPix m := by
  induction leds generalizing s with
  | nil =>
    cases h
    exact ⟨t.pix, rfl⟩
  | cons led leds ih =>
    obtain ⟨s1, h1, h⟩ := andThen_eq_next.1 h
    obtain ⟨_, rfl⟩ := writePixel_eq_next h1
    obtain ⟨m, rfl⟩ := ih h
    exact ⟨m, rfl⟩

theorem paint_eq_next {leds : List Nat} {c : Colour} (h : paint leds c s = .next t) :
    ∃ m, t = { s with pix := m, out := s.out ++ [.response .host 0x00000000] } := by
  obtain ⟨s1, h1, h⟩ := andThen_eq_next.1 h
  obtain ⟨m, rfl⟩ := writePixels_eq_next h1
  cases h
  exact ⟨m, by rw [State.respond_rspOk]; rfl⟩

/-! ### ENCODE in any state -/

/-- In phase Reset an ENCODE leaves the place alone, which R28 makes 0, and is `State.encoded` in everything else. -/
theorem exec_encode_eq_of_resetPhase (space : Half) (hb : s.busy = true) (hp : s.phase = .reset) :
    exec (.encode space) s =
      .next { s.encoded space.toNat with byteIdx := s.byteIdx, bitIdx := s.bitIdx } := by
  have hlen := State.length_remaining_reset hb hp
  rw [exec_encode_reset space hb hp]
  rcases Nat.eq_zero_or_pos space.toNat with h | h
  · rw [encodeReset_noSlot h.le, State.encoded_toReset hb (by omega), ← hp]
    simp [h]
  · rw [encodeReset_slot h, State.encoded_complete (by omega), hlen, State.remaining_reset hb hp]
    rfl

/-- In phase Data a place outside the buffer faults. -/
theorem exec_encode_fault (space : Half) (hb : s.busy = true) (hp : s.phase = .data)
    (hlt : ¬ s.byteIdx.toNat < s.cfg.len) :
    exec (.encode space) s = .fault (.noSuchOffset s.byteIdx.toNat) := by
  rw [exec_encode_data space hb hp, encodeData, bpeEncode_fault hlt, andThen_fault]

/-- An ENCODE that has a next state in a session is `State.encoded` but for the place, and the session lacked its
RESET_SYM at least. -/
theorem exec_encode_eq_next {space : Half} (hb : s.busy = true) (h : exec (.encode space) s = .next t) :
    1 ≤ s.remaining.length ∧
      ∃ byteIdx bitIdx, t = { s.encoded space.toNat with byteIdx := byteIdx, bitIdx := bitIdx } := by
  cases hp : s.phase with
  | data =>
    by_cases hlt : s.byteIdx.toNat < s.cfg.len
    · rw [exec_encode_eq_of_data space hb hp hlt] at h
      cases h
      exact ⟨(State.length_remaining_bounds hb hlt).1, _, _, rfl⟩
    · rw [exec_encode_fault space hb hp hlt] at h
      cases h
  | reset =>
    rw [exec_encode_eq_of_resetPhase space hb hp] at h
    cases h
    exact ⟨(State.length_remaining_reset hb hp).ge, _, _, rfl⟩

/-! ### Every command -/

/-- What a command can do, in every state (R20): the host commands but FLUSH write PIX or BRT and answer success, FLUSH
and ENCRST set the session, ENCODE answers, and in a session advances it. -/
theorem exec_cases (h : exec i s = .next t) :
    (∃ m v, i.port = .host ∧ t = { s with pix := m, brt := v, out := s.out ++ [.response .host 0x00000000] } ∧
      (m = s.pix ∨ (∃ idx r g b, i = .set idx r g b) ∨ ∃ idx cnt r g b, i = .fill idx cnt r g b) ∧
      (v = s.brt ∨ ∃ lvl, i = .setbrt lvl)) ∨
    (i = .flush ∧ t = s.flushed) ∨
    (i = .encrst ∧ t = { s with
      phase := .data, byteIdx := 0, bitIdx := 0, busy := false
      out := s.out ++ [.response .pipeline 0x00000000] }) ∨
    (∃ space, i = .encode space ∧ s.busy = false ∧
      t = { s with out := s.out ++ [.response .pipeline 0x00000000] }) ∨
    (∃ space byteIdx bitIdx, i = .encode space ∧ s.busy = true ∧ 1 ≤ s.remaining.length ∧
      t = { s.encoded space.toNat with byteIdx := byteIdx, bitIdx := bitIdx }) := by
  cases i with
  | nop =>
    cases (exec_nop_eq s).symm.trans h
    exact .inl ⟨s.pix, s.brt, rfl, rfl, .inl rfl, .inl rfl⟩
  | set idx r g b =>
    rw [exec_set_eq_paint] at h
    obtain ⟨m, rfl⟩ := paint_eq_next h
    exact .inl ⟨m, s.brt, rfl, rfl, .inr (.inl ⟨idx, r, g, b, rfl⟩), .inl rfl⟩
  | fill idx cnt r g b =>
    rw [exec_fill_eq_paint] at h
    obtain ⟨m, rfl⟩ := paint_eq_next h
    exact .inl ⟨m, s.brt, rfl, rfl, .inr (.inr ⟨idx, cnt, r, g, b, rfl⟩), .inl rfl⟩
  | setbrt lvl =>
    cases (exec_setbrt_eq lvl s).symm.trans h
    exact .inl ⟨s.pix, lvl, rfl, rfl, .inl rfl, .inr ⟨lvl, rfl⟩⟩
  | flush =>
    cases (exec_flush_eq s).symm.trans h
    exact .inr (.inl ⟨rfl, rfl⟩)
  | encrst =>
    cases (exec_encrst_eq s).symm.trans h
    exact .inr (.inr (.inl ⟨rfl, rfl⟩))
  | encode space =>
    rcases Bool.eq_false_or_eq_true s.busy with hb | hb
    · obtain ⟨hlen, byteIdx, bitIdx, rfl⟩ := exec_encode_eq_next hb h
      exact .inr (.inr (.inr (.inr ⟨space, byteIdx, bitIdx, rfl, hb, hlen, rfl⟩)))
    · cases (exec_encode_idle space hb).symm.trans h
      exact .inr (.inr (.inr (.inl ⟨space, rfl, hb, rfl⟩)))

/-- No command touches the parameters (R6). -/
theorem exec_cfg (h : exec i s = .next t) : t.cfg = s.cfg := by
  obtain ⟨_, _, -, rfl, -⟩ | ⟨-, rfl⟩ | ⟨-, rfl⟩ | ⟨_, -, -, rfl⟩ | ⟨_, _, _, -, -, -, rfl⟩ := exec_cases h <;> rfl

/-- The pipeline commands leave the buffer and the brightness alone (R49 (a), R51). -/
theorem exec_pipeline_keeps_pix_brt (hi : i.port = .pipeline) (h : exec i s = .next t) :
    t.pix = s.pix ∧ t.brt = s.brt := by
  obtain ⟨_, _, hhost, -⟩ | ⟨rfl, -⟩ | ⟨-, rfl⟩ | ⟨_, -, -, rfl⟩ | ⟨_, _, _, -, -, -, rfl⟩ := exec_cases h
  · cases hi.symm.trans hhost
  · cases hi
  all_goals exact ⟨rfl, rfl⟩

/-- With BUSY = 0 no command emits a symbol, and only FLUSH makes BUSY 1 (R33). -/
theorem exec_of_idle (hb : s.busy = false) (h : exec i s = .next t) :
    symbolsOf t.out = symbolsOf s.out ∧ (t.busy = true → i = .flush) := by
  obtain ⟨_, _, -, rfl, -⟩ | ⟨rfl, rfl⟩ | ⟨-, rfl⟩ | ⟨_, -, -, rfl⟩ | ⟨_, _, _, -, hbusy, -⟩ := exec_cases h
  · exact ⟨by simp, fun ht => absurd (hb.symm.trans ht) (by decide)⟩
  · exact ⟨by simp [State.flushed], fun _ => rfl⟩
  · exact ⟨by simp, fun ht => absurd ht Bool.false_ne_true⟩
  · exact ⟨by simp, fun ht => absurd (hb.symm.trans ht) (by decide)⟩
  · cases hb.symm.trans hbusy

/-! ### BRT and the encoder (R51) -/

/-- NOP, FLUSH, ENCODE and ENCRST do the same under another brightness. -/
theorem exec_setBrt (v : Byte) (hi : i = .nop ∨ i = .flush ∨ i = .encrst ∨ ∃ space, i = .encode space)
    (h : exec i s = .next t) : exec i (s.setBrt v) = .next (t.setBrt v) := by
  obtain rfl | rfl | rfl | ⟨space, rfl⟩ := hi
  · cases (exec_nop_eq s).symm.trans h
    exact exec_nop_eq _
  · cases (exec_flush_eq s).symm.trans h
    exact exec_flush_eq _
  · cases (exec_encrst_eq s).symm.trans h
    exact exec_encrst_eq _
  · cases hb : s.busy with
    | false =>
      cases (exec_encode_idle space hb).symm.trans h
      exact exec_encode_idle space hb
    | true =>
      cases hp : s.phase with
      | data =>
        by_cases hlt : s.byteIdx.toNat < s.cfg.len
        · cases (exec_encode_eq_of_data space hb hp hlt).symm.trans h
          exact exec_encode_eq_of_data (s := s.setBrt v) space hb hp hlt
        · cases (exec_encode_fault space hb hp hlt).symm.trans h
      | reset =>
        cases (exec_encode_eq_of_resetPhase space hb hp).symm.trans h
        exact exec_encode_eq_of_resetPhase (s := s.setBrt v) space hb hp

/-! ### The answer to a command (30_encoding.md sections 3, 5 and 6) -/

/-- The symbols `ws` and then the response `w` on a port are an answer the block can give: its three symbols only, NSYM
their count, FULL and COMPLETE not both, ERR alone, COMPLETE with a symbol, and on the host port no symbol and a word of
two. -/
structure IsAnswer (k : Nat) (p : Port) (ws : List SymWord) (w : RspWord) : Prop where
  symbols : ∀ x ∈ ws, x = (bit0Sym k).pack ∨ x = (bit1Sym k).pack ∨ x = (resetSym k).pack
  nsym : w.toNat % 2 ^ 16 = ws.length
  bound : w.toNat < 2 ^ 19
  exclusive : ¬ (w.getLsbD 16 = true ∧ w.getLsbD 17 = true)
  err : w.getLsbD 18 = true → w = 0x00040000
  complete : w.getLsbD 17 = true → 1 ≤ ws.length
  host : p = .host → ws = [] ∧ (w = 0 ∨ w = 0x00040000)

/-- The success answer, and the ILLEGAL answer. -/
theorem IsAnswer.ok (k : Nat) (p : Port) : IsAnswer k p [] 0 where
  symbols := by simp
  nsym := rfl
  bound := by decide
  exclusive := by decide
  err := by decide
  complete := by decide
  host := fun _ => ⟨rfl, .inl rfl⟩

theorem IsAnswer.illegal (k : Nat) (p : Port) : IsAnswer k p [] 0x00040000 where
  symbols := by simp
  nsym := rfl
  bound := by decide
  exclusive := by decide
  err := fun _ => rfl
  complete := by decide
  host := fun _ => ⟨rfl, .inr rfl⟩

/-- A frame holds no symbol but the three (R130). -/
theorem mem_frame {k : Nat} {bytes : List Byte} {x : SymWord} (h : x ∈ frame k bytes) :
    x = (bit0Sym k).pack ∨ x = (bit1Sym k).pack ∨ x = (resetSym k).pack := by
  rcases List.mem_append.1 h with h | h
  · obtain ⟨v, -, hx⟩ := List.mem_flatMap.1 h
    obtain ⟨b, -, rfl⟩ := List.mem_map.1 hx
    cases b
    · exact .inl rfl
    · exact .inr (.inl rfl)
  · exact .inr (.inr (List.mem_singleton.1 h))

theorem State.mem_remaining {x : SymWord} (hb : s.busy = true) (h : x ∈ s.remaining) :
    x = (bit0Sym s.cfg.k).pack ∨ x = (bit1Sym s.cfg.k).pack ∨ x = (resetSym s.cfg.k).pack := by
  cases hp : s.phase with
  | data =>
    rw [State.remaining_data hb hp] at h
    exact mem_frame (List.mem_of_mem_drop h)
  | reset =>
    rw [State.remaining_reset hb hp] at h
    exact .inr (.inr (List.mem_singleton.1 h))

/-- COMPLETE iff the space is enough (R127). -/
theorem State.encodeRsp_complete (s : State) (space : Nat) :
    (s.encodeRsp space).complete = decide (s.remaining.length ≤ space) := by
  unfold State.encodeRsp
  split_ifs with h <;> simp [h, rspComplete, rspFull]

/-- FULL iff it is not (R127). -/
theorem State.encodeRsp_full (s : State) (space : Nat) :
    (s.encodeRsp space).full = decide (¬ s.remaining.length ≤ space) := by
  unfold State.encodeRsp
  split_ifs with h <;> simp [h, rspComplete, rspFull]

/-- The answer of an ENCODE in a session: the symbols lacking as far as the space goes. -/
theorem IsAnswer.encode (space : Half) (hb : s.busy = true) (hlen : 1 ≤ s.remaining.length) :
    IsAnswer s.cfg.k .pipeline (s.remaining.take space.toNat) (s.encodeRsp space.toNat).pack := by
  have hspace := space.isLt
  have hw := s.encodeRsp_toNat space
  have hcomplete : (s.encodeRsp space.toNat).pack.getLsbD 17 = decide (s.remaining.length ≤ space.toNat) := by
    rw [Response.getLsbD_pack, ← State.encodeRsp_complete]
    rfl
  have hfull : (s.encodeRsp space.toNat).pack.getLsbD 16 = decide (¬ s.remaining.length ≤ space.toNat) := by
    rw [Response.getLsbD_pack, ← State.encodeRsp_full]
    rfl
  have herr : (s.encodeRsp space.toNat).pack.getLsbD 18 = false := by
    rw [Response.getLsbD_pack, State.encodeRsp_err]
    rfl
  refine ⟨fun x hx => State.mem_remaining hb (List.mem_of_mem_take hx), ?_, ?_, ?_, ?_, ?_, ?_⟩
  · rw [hw, List.length_take]
    split_ifs <;> omega
  · rw [hw]
    split_ifs <;> omega
  · rw [hcomplete, hfull, decide_eq_true_iff, decide_eq_true_iff]
    exact fun h => h.1 h.2
  · rw [herr]
    exact fun h => absurd h (by decide)
  · rw [hcomplete, decide_eq_true_iff, List.length_take]
    omega
  · exact fun h => absurd h (by decide)

/-- A command adds its symbols and then its one response to the output (R75). -/
theorem exec_answers (h : exec i s = .next t) :
    ∃ ws w, t.out = s.out ++ ws.map .symbol ++ [.response i.port w] ∧ IsAnswer s.cfg.k i.port ws w := by
  obtain ⟨_, _, hi, rfl, -⟩ | ⟨rfl, rfl⟩ | ⟨rfl, rfl⟩ | ⟨_, rfl, -, rfl⟩ | ⟨space, _, _, rfl, hb, hlen, rfl⟩ :=
    exec_cases h
  · exact ⟨[], 0, by simp [hi], .ok _ _⟩
  · exact ⟨[], 0, by simp [State.flushed, Instr.port], .ok _ _⟩
  · exact ⟨[], 0, by simp [Instr.port], .ok _ _⟩
  · exact ⟨[], 0, by simp [Instr.port], .ok _ _⟩
  · exact ⟨_, _, rfl, .encode space hb hlen⟩

end Sys2Proof.Machine
end

section
/-!
PROOFS. The obligations on what a command writes and reads (10_state.md, 20_memory.md).
-/

namespace Sys2Proof.Machine

/-- Settles O21: the five kinds of command, each with the elements it writes. -/
theorem stateIsWrittenOnlyByItsWriters : Obligations.StateIsWrittenOnlyByItsWriters := by
  intro i s t h
  obtain ⟨m, v, -, rfl, hm, hv⟩ | ⟨rfl, rfl⟩ | ⟨rfl, rfl⟩ | ⟨space, rfl, -, rfl⟩ | ⟨space, _, _, rfl, -, -, rfl⟩ :=
    exec_cases h
  · exact ⟨hm.resolve_left, hv.resolve_left, fun h => absurd rfl h, rfl, rfl, rfl, rfl, List.prefix_append _ _⟩
  · exact ⟨fun h => absurd rfl h, fun h => absurd rfl h, fun _ => .inl rfl, rfl, rfl, rfl, rfl,
      List.prefix_append _ _⟩
  · exact ⟨fun h => absurd rfl h, fun h => absurd rfl h, fun _ => .inr (.inl rfl), rfl, rfl, rfl, rfl,
      List.prefix_append _ _⟩
  · exact ⟨fun h => absurd rfl h, fun h => absurd rfl h, fun h => absurd rfl h, rfl, rfl, rfl, rfl,
      List.prefix_append _ _⟩
  · refine ⟨fun h => absurd rfl h, fun h => absurd rfl h, fun _ => .inr (.inr ⟨space, rfl⟩), rfl, rfl, rfl, rfl, ?_⟩
    exact (List.prefix_append _ _).trans (List.prefix_append _ _)

/-- Settles O23: the four commands' closed forms do not mention BRT. -/
theorem brightnessIsInvisibleToTheEncoder : Obligations.BrightnessIsInvisibleToTheEncoder :=
  fun _ _ _ v => exec_setBrt v

end Sys2Proof.Machine
end

section
/-!
SUPPORT. What a step keeps and what it adds to the output, from what a turn can do (10_state.md section 4, 20_memory.md
R49).
-/

namespace Sys2Proof.Machine

variable {i : Instr} {s t : State} {p : Port} {w : CmdWord}

/-! ### The step that performs a command, and the reset step -/

theorem perform_ok (hd : decode p w = .ok i) : perform p w s = exec i s := by
  simp [perform, hd]

theorem step_pipeline_accepted {q : List (Option CmdWord)} {r : List Agent} (hw : s.cfg.WellFormed)
    (hs : s.sched = .pipeline :: r) (hp : s.pipePort = some w :: q) :
    step s = perform .pipeline w { s with sched := r, pipePort := q } := by
  rw [step_portTurn (p := .pipeline) hw hs, portTurn_ready (State.presented_pipeline hp) s.ready_pipeline,
    State.accept_pipeline_eq hs hp]

theorem step_reset {r : List Agent} (hw : s.cfg.WellFormed) (hs : s.sched = .reset :: r) :
    step s = .next (applyReset s) := by
  rw [step, if_pos hw, hs]

/-! ### What every turn and every step keeps -/

/-- No turn touches the parameters (R6). -/
theorem portTurn_cfg (h : portTurn p s = .next t) : t.cfg = s.cfg := by
  obtain ⟨-, rfl⟩ | ⟨_, -, -, rfl⟩ | ⟨_, _, -, -, -, rfl⟩ | ⟨_, _, -, -, -, he⟩ := portTurn_cases h
  · exact State.idleTurn_cfg s p
  · exact State.hold_cfg s
  · exact State.accept_cfg s p
  · exact (exec_cfg he).trans (State.accept_cfg s p)

theorem step_cfg (h : step s = .next t) : t.cfg = s.cfg := by
  obtain ⟨-, ⟨-, rfl⟩ | ⟨_, -, rfl⟩ | ⟨_, _, -, hturn⟩⟩ := step_cases h
  · rfl
  · rfl
  · exact portTurn_cfg hturn

/-- While BUSY = 1 a turn performs no host command, so no turn changes the buffer or the brightness (R49 (a)). -/
theorem portTurn_busy_keeps_pix_brt (hb : s.busy = true) (h : portTurn p s = .next t) :
    t.pix = s.pix ∧ t.brt = s.brt := by
  obtain ⟨-, rfl⟩ | ⟨_, -, -, rfl⟩ | ⟨_, _, -, -, -, rfl⟩ | ⟨w, i, -, hready, hd, he⟩ := portTurn_cases h
  · exact ⟨State.idleTurn_pix s p, State.idleTurn_brt s p⟩
  · exact ⟨rfl, rfl⟩
  · exact ⟨State.accept_pix s p, State.accept_brt s p⟩
  · cases p with
    | host =>
      rw [State.ready_host, hb] at hready
      cases hready
    | pipeline => exact exec_pipeline_keeps_pix_brt (s := s.accept .pipeline) (port_of_decode_ok hd) he

/-- With BUSY = 0 a turn emits no symbol, and one that makes BUSY 1 performs a FLUSH of the Host (R33). -/
theorem portTurn_of_idle (hb : s.busy = false) (h : portTurn p s = .next t) :
    symbolsOf t.out = symbolsOf s.out ∧
      (t.busy = true → p = .host ∧ ∃ w q, s.hostPort = some w :: q ∧ decode .host w = .ok .flush) := by
  have hidle : (s.accept p).busy = false := (State.accept_busy s p).trans hb
  refine ⟨?_, fun ht => ?_⟩
  · obtain ⟨-, rfl⟩ | ⟨_, -, -, rfl⟩ | ⟨_, _, -, -, -, rfl⟩ | ⟨_, _, -, -, -, he⟩ := portTurn_cases h
    · rw [State.idleTurn_out]
    · rfl
    · simp [answerIllegal]
    · rw [(exec_of_idle hidle he).1, State.accept_out]
  · obtain ⟨w, i, hp, -, hd, he⟩ := portTurn_changes_busy h (by rw [hb, ht]; decide)
    obtain rfl := (exec_of_idle hidle he).2 ht
    obtain rfl : Port.host = p := port_of_decode_ok hd
    obtain ⟨q, hq⟩ := State.portInput_of_presented hp
    exact ⟨rfl, w, q, hq, hd⟩

/-! ### The invariants (R28) -/

/-- The state after reset meets them: a well-formed strip has a first byte for the place 0. -/
theorem State.resetOf_inv {c : Config} (hc : c.WellFormed) : (State.resetOf c).Inv := by
  have hlen : 0 < c.len := Nat.mul_pos (by decide) hc.1
  exact ⟨hc, ⟨hlen, fun _ => ⟨rfl, rfl⟩, fun _ => ⟨rfl, rfl, rfl⟩⟩, ⟨List.Pairwise.nil, nofun⟩, nofun⟩

/-- What ENCODE leaves meets them: each row of R127's table has a place inside the buffer, and the place 0 in the rows
of phase Reset and of BUSY 0. -/
theorem State.encoded_inv (hs : s.Inv) (hb : s.busy = true) (space : Nat) : (s.encoded space).Inv := by
  have hplace : (s.encoded space).pos < 8 * s.cfg.len :=
    (State.encoded_pos hs hb space).trans_lt (State.encodePoint_pos_lt hs hb space)
  obtain ⟨hwf, -, hbuf⟩ := hs
  refine ⟨hwf, ⟨((s.encoded space).pos_lt_iff).1 hplace, ?_⟩, hbuf⟩
  simp only [State.encoded, State.encodePoint]
  split_ifs <;> simp

/-- Every command keeps the invariants: SET and FILL write inside the buffer, FLUSH and ENCRST leave the place 0 in
phase Data. -/
theorem exec_inv (hs : s.Inv) (h : exec i s = .next t) : t.Inv := by
  have ⟨hwf, hsession, hbuf⟩ := hs
  have hlen : 0 < s.cfg.len := Nat.zero_lt_of_lt hsession.1
  cases i with
  | nop =>
    cases (exec_nop_eq s).symm.trans h
    exact hs
  | set idx r g b =>
    obtain ⟨m, hm, hbm, -⟩ := exec_set_spec hs idx r g b
    cases hm.symm.trans h
    exact ⟨hwf, hsession, hbm⟩
  | fill idx cnt r g b =>
    obtain ⟨m, hm, hbm, -⟩ := exec_fill_spec hs idx cnt r g b
    cases hm.symm.trans h
    exact ⟨hwf, hsession, hbm⟩
  | setbrt lvl =>
    cases (exec_setbrt_eq lvl s).symm.trans h
    exact hs
  | flush =>
    cases (exec_flush_eq s).symm.trans h
    exact ⟨hwf, ⟨hlen, fun _ => ⟨rfl, rfl⟩, fun _ => ⟨rfl, rfl, rfl⟩⟩, hbuf⟩
  | encrst =>
    cases (exec_encrst_eq s).symm.trans h
    exact ⟨hwf, ⟨hlen, fun _ => ⟨rfl, rfl⟩, fun _ => ⟨rfl, rfl, rfl⟩⟩, hbuf⟩
  | encode space =>
    cases hb : s.busy with
    | false =>
      cases (exec_encode_idle space hb).symm.trans h
      exact hs
    | true =>
      cases (exec_encode_eq space hs hb).symm.trans h
      exact State.encoded_inv hs hb _

theorem portTurn_inv (hs : s.Inv) (h : portTurn p s = .next t) : t.Inv := by
  have hacc : (s.accept p).Inv := s.accept_inv p hs
  obtain ⟨-, rfl⟩ | ⟨_, -, -, rfl⟩ | ⟨_, _, -, -, -, rfl⟩ | ⟨_, _, -, -, -, he⟩ := portTurn_cases h
  · exact hacc
  · exact hs
  · exact hacc
  · exact exec_inv hacc he

theorem step_inv (hs : s.Inv) (h : step s = .next t) : t.Inv := by
  obtain ⟨hwf, ⟨-, rfl⟩ | ⟨_, -, rfl⟩ | ⟨_, _, -, hturn⟩⟩ := step_cases h
  · exact hs
  · exact State.resetOf_inv hwf
  · exact portTurn_inv hs hturn

/-! ### The output of a turn (30_encoding.md section 6) -/

/-- A turn adds nothing to the output, or one answer of the block on its port. -/
theorem portTurn_answers (h : portTurn p s = .next t) :
    t.out = s.out ∨ ∃ ws w, t.out = s.out ++ ws.map .symbol ++ [.response p w] ∧ IsAnswer s.cfg.k p ws w := by
  obtain ⟨-, rfl⟩ | ⟨_, -, -, rfl⟩ | ⟨_, _, -, -, -, rfl⟩ | ⟨_, i, -, -, hd, he⟩ := portTurn_cases h
  · exact .inl (State.idleTurn_out s p)
  · exact .inl rfl
  · exact .inr ⟨[], _, by simp [answerIllegal], .illegal _ _⟩
  · obtain ⟨ws, w, hout, hans⟩ := exec_answers he
    rw [State.accept_out, port_of_decode_ok hd] at hout
    rw [State.accept_cfg, port_of_decode_ok hd] at hans
    exact .inr ⟨ws, w, hout, hans⟩

end Sys2Proof.Machine
end

section
/-!
PROOFS. The obligations on what steps keep and emit, and on reset (00_scope.md, 10_state.md, 20_memory.md,
30_encoding.md, 70_reset_and_hazards.md).
-/

namespace Sys2Proof.Machine

/-- Settles O19: every turn keeps the invariants because every command does, and a reset makes them. -/
theorem everyStepKeepsTheInvariant : Obligations.EveryStepKeepsTheInvariant :=
  fun _ _ => step_inv

/-- Settles O15: the state of R33 field by field, then what a turn can do with BUSY = 0. -/
theorem resetValues : Obligations.ResetValues := by
  refine ⟨fun c => ⟨fun _ => rfl, rfl, rfl, rfl, rfl, rfl, rfl, rfl⟩, fun s t hb h => ?_, rfl, by decide⟩
  obtain ⟨-, ⟨-, rfl⟩ | ⟨_, -, rfl⟩ | ⟨p, r, hr, hturn⟩⟩ := step_cases h
  · exact ⟨rfl, fun ht => absurd (hb.symm.trans ht) Bool.false_ne_true⟩
  · exact ⟨rfl, fun ht => absurd ht Bool.false_ne_true⟩
  · obtain ⟨hsym, hflush⟩ := portTurn_of_idle hb hturn
    refine ⟨hsym, fun ht => ?_⟩
    obtain ⟨rfl, w, q, hq, hd⟩ := hflush ht
    exact ⟨w, q, r, hr, hq, hd⟩

/-- Settles O17: no step writes `cfg`, and the domains of R6 are what well-formedness tests. -/
theorem parametersAreFixed : Obligations.ParametersAreFixed := by
  refine ⟨fun s t => step_cfg, fun s hw => if_neg hw, fun c => ?_⟩
  unfold Config.WellFormed Config.k
  constructor
  · rintro ⟨h1, h2, hmul, hk1, hk2⟩
    exact ⟨h1, h2, c.resHz / 10000000, hk1, hk2, by omega⟩
  · rintro ⟨h1, h2, k, hk1, hk2, hk⟩
    omega

/-- Settles O22: a step that is no reset is a turn, and no turn writes the buffer or the brightness while BUSY = 1. -/
theorem bufferIsFrozenWhileBusy : Obligations.BufferIsFrozenWhileBusy := by
  intro s t hb h hreset
  obtain ⟨-, ⟨-, rfl⟩ | ⟨r, hr, -⟩ | ⟨_, _, -, hturn⟩⟩ := step_cases h
  · exact ⟨rfl, rfl⟩
  · exact absurd hr (hreset r)
  · exact portTurn_busy_keeps_pix_brt hb hturn

/-- Settles O24: a turn adds one answer or nothing, any other step nothing. -/
theorem outputsAreSymbolsThenOneResponse : Obligations.OutputsAreSymbolsThenOneResponse := by
  intro s t h
  have hsilent : t.out = s.out ∨ ∃ p ws w, t.out = s.out ++ ws.map .symbol ++ [.response p w] ∧
      IsAnswer s.cfg.k p ws w := by
    obtain ⟨-, ⟨-, rfl⟩ | ⟨_, -, rfl⟩ | ⟨p, _, -, hturn⟩⟩ := step_cases h
    · exact .inl rfl
    · exact .inl rfl
    · exact (portTurn_answers hturn).imp_right fun hans => ⟨p, hans⟩
  obtain hout | ⟨p, ws, w, hout, hans⟩ := hsilent
  · exact ⟨[], [], by simp [hout], by simp, .inl ⟨rfl, rfl⟩⟩
  · exact ⟨ws, [.response p w], hout, hans.symbols, .inr ⟨p, w, rfl, hans.nsym, hans.bound, hans.exclusive, hans.err,
      hans.complete, hans.host⟩⟩

/-- Settles O12: acceptance takes the word from its port and spends the turn, and a decoded word is performed. -/
theorem stepRunsTheDecodedInstruction : Obligations.StepRunsTheDecodedInstruction :=
  fun _ _ _ _ _ hw => ⟨fun hs hp hb hd => (step_host_accepted hw hs hp hb).trans (perform_ok hd),
    fun hs hp hd => (step_pipeline_accepted hw hs hp).trans (perform_ok hd)⟩

/-- Settles O16: the reset step's state, written out; its buffer is the empty list of cells. -/
theorem resetStepFromAnyState : Obligations.ResetStepFromAnyState := by
  intro s r hw hs
  refine ⟨[], (step_reset hw hs).trans ?_, fun _ => rfl⟩
  rw [applyReset, hs]
  rfl

/-- Settles O18: the state after reset meets the invariants, the model's chosen parameter set being well formed. -/
theorem invariantHoldsAtReset : Obligations.InvariantHoldsAtReset :=
  ⟨fun _ => State.resetOf_inv, State.resetOf_inv (by decide)⟩

end Sys2Proof.Machine
end

section
/-!
SUPPORT. What ENCODE, and every step short of an abort, moves from what a session lacks to the symbol stream
(42_protocol_encoder.md R127, R129, 43_driver_control.md R158).
-/

namespace Sys2Proof.Machine

variable {s t : State}

/-! ### The rows of R127's table -/

theorem State.encodePoint_complete {n : Nat} (h : s.remaining.length ≤ n) : s.encodePoint n = ⟨.data, 0, false⟩ :=
  if_pos h

theorem State.encodePoint_yield {n : Nat} (hp : s.phase = .data) (h : n + 1 < s.remaining.length) :
    s.encodePoint n = ⟨.data, s.pos + n, true⟩ := by
  rw [State.encodePoint, if_neg (by omega), if_pos ⟨hp, h⟩]

theorem State.encodePoint_toReset {n : Nat} (h : n + 1 = s.remaining.length) : s.encodePoint n = ⟨.reset, 0, true⟩ := by
  rw [State.encodePoint, if_neg (by omega), if_neg (by omega)]

/-! ### What is lacking after an ENCODE -/

theorem State.remaining_idle (hb : s.busy = false) : s.remaining = [] := by
  rw [State.remaining, hb]
  rfl

/-- The last symbol lacking is RESET_SYM. -/
theorem State.remaining_drop_last (hs : s.SessionInv) (hb : s.busy = true) {n : Nat} (h : n + 1 = s.remaining.length) :
    s.remaining.drop n = [(resetSym s.cfg.k).pack] := by
  obtain ⟨hlt, -⟩ := hs
  have hpos := s.pos_lt_iff.2 hlt
  cases hp : s.phase with
  | data =>
    have hlen := State.length_remaining_data hb hp hlt
    rw [State.remaining_data hb hp, List.drop_drop, show s.pos + n = 8 * s.cfg.len by omega, frame_drop_data]
  | reset =>
    have hlen := State.length_remaining_reset hb hp
    rw [State.remaining_reset hb hp, show n = 0 by omega, List.drop_zero]

/-- An ENCODE of `n` leaves lacking what was lacking beyond the first `n`. -/
theorem State.remaining_encoded (hs : s.Inv) (hb : s.busy = true) (n : Nat) :
    (s.encoded n).remaining = s.remaining.drop n := by
  have ⟨_, hsession, _⟩ := hs
  rcases Nat.lt_trichotomy (n + 1) s.remaining.length with h | h | h
  · cases hp : s.phase with
    | data =>
      have hpoint := State.encodePoint_yield hp h
      have hdata : (s.encoded n).remaining = (frame s.cfg.k s.bytes).drop (s.encoded n).pos :=
        State.remaining_data (congrArg SessionPoint.busy hpoint) (congrArg SessionPoint.phase hpoint)
      rw [hdata, State.encoded_pos hs hb, hpoint, State.remaining_data hb hp, List.drop_drop]
    | reset =>
      have hlen := State.length_remaining_reset hb hp
      omega
  · have hpoint := State.encodePoint_toReset h
    rw [State.remaining_drop_last hsession hb h]
    exact State.remaining_reset (congrArg SessionPoint.busy hpoint) (congrArg SessionPoint.phase hpoint)
  · have hpoint := State.encodePoint_complete (s := s) (n := n) (by omega)
    rw [List.drop_eq_nil_of_le (by omega)]
    exact State.remaining_idle (congrArg SessionPoint.busy hpoint)

/-! ### Every step short of an abort (R129, R158 (b)) -/

/-- From `s` to `t` the session goes the way of an ENCODE of `n`, and its symbols are emitted; ports, schedule and
responses are left open. -/
def State.AdvancesBy (s t : State) (n : Nat) : Prop :=
  ∃ h q r o, t = { s.encoded n with hostPort := h, pipePort := q, sched := r, out := o } ∧
    symbolsOf o = symbolsOf s.out ++ s.remaining.take n

/-- A step that leaves the session alone goes the way of an `ENCODE 0` (R132). -/
theorem State.advancesBy_zero (hs : s.Inv) (hb : s.busy = true) {h q : List (Option CmdWord)} {r : List Agent}
    {o : List Event} (ho : symbolsOf o = symbolsOf s.out) :
    s.AdvancesBy { s with hostPort := h, pipePort := q, sched := r, out := o } 0 := by
  refine ⟨h, q, r, o, ?_, by rw [ho, List.take_zero, List.append_nil]⟩
  rw [State.encoded_zero hs hb]

/-- The Host's turn in a session is idle or held (R156). -/
theorem host_turn_advances (hs : s.Inv) (hb : s.busy = true) (h : portTurn .host s = .next t) : s.AdvancesBy t 0 := by
  obtain ⟨-, rfl⟩ | ⟨_, -, -, rfl⟩ | ⟨_, _, -, hr, -⟩ | ⟨_, _, -, hr, -⟩ := portTurn_cases h
  · exact State.advancesBy_zero hs hb rfl
  · exact State.advancesBy_zero hs hb rfl
  all_goals
    rw [State.ready_host, hb] at hr
    cases hr

/-- The Pipeline's turn in a session, unless it is an ENCRST, advances it by the space of its ENCODE, or by 0. -/
theorem pipeline_turn_advances (hs : s.Inv) (hb : s.busy = true) {r : List Agent} (hr : s.sched = .pipeline :: r)
    (ha : s.abortsNext = false) (h : portTurn .pipeline s = .next t) : s.AdvancesBy t s.spaceNext := by
  obtain ⟨hp, rfl⟩ | ⟨_, -, hready, -⟩ | ⟨w, e, hp, -, hd, rfl⟩ | ⟨w, i, hp, -, hd, he⟩ := portTurn_cases h
  · have hspace : s.spaceNext = 0 := by simp [State.spaceNext, hr, hp]
    rw [hspace]
    exact State.advancesBy_zero hs hb rfl
  · cases hready
  · have hspace : s.spaceNext = 0 := by simp [State.spaceNext, hr, hp, hd]
    rw [hspace]
    exact State.advancesBy_zero hs hb (by simp)
  · have hacc : (s.accept .pipeline).Inv := s.accept_inv .pipeline hs
    have hport := port_of_decode_ok hd
    cases i with
    | encode space =>
      have hspace : s.spaceNext = space.toNat := by simp [State.spaceNext, hr, hp, hd]
      rw [exec_encode_eq space hacc hb] at he
      cases he
      rw [hspace]
      exact ⟨_, _, _, _, rfl, by simp; rfl⟩
    | encrst => simp [State.abortsNext, hr, hp, hd] at ha
    | nop | set | fill | setbrt | flush => cases hport

theorem step_advances (hs : s.Inv) (hb : s.busy = true) (ha : s.abortsNext = false) (h : step s = .next t) :
    s.AdvancesBy t s.spaceNext := by
  obtain ⟨-, ⟨hr, rfl⟩ | ⟨r, hr, -⟩ | ⟨p, r, hr, hturn⟩⟩ := step_cases h
  · have hspace : t.spaceNext = 0 := by simp [State.spaceNext, hr]
    rw [hspace]
    exact State.advancesBy_zero hs hb rfl
  · simp [State.abortsNext, hr] at ha
  · cases p with
    | host =>
      have hspace : s.spaceNext = 0 := by simp [State.spaceNext, hr, Port.agent]
      rw [hspace]
      exact host_turn_advances hs hb hturn
    | pipeline => exact pipeline_turn_advances hs hb hr ha hturn

/-- Advancing loses no symbol: what was lacking is emitted or lacking still, in order. -/
theorem State.AdvancesBy.conserves {n : Nat} (hs : s.Inv) (hb : s.busy = true) (h : s.AdvancesBy t n) :
    symbolsOf t.out ++ t.remaining = symbolsOf s.out ++ s.remaining := by
  obtain ⟨_, _, _, o, rfl, ho⟩ := h
  have hrem := State.remaining_encoded hs hb n
  calc symbolsOf o ++ (s.encoded n).remaining
      = symbolsOf s.out ++ (s.remaining.take n ++ s.remaining.drop n) := by rw [ho, hrem, List.append_assoc]
    _ = symbolsOf s.out ++ s.remaining := by rw [List.take_append_drop]

/-- The session after advancing is the table's. -/
theorem State.AdvancesBy.point {n : Nat} {x : SessionPoint} (hs : s.Inv) (hb : s.busy = true) (h : s.AdvancesBy t n)
    (hx : s.encodePoint n = x) :
    t.phase = x.phase ∧ t.busy = x.busy ∧ t.pos = x.pos ∧
      symbolsOf t.out = symbolsOf s.out ++ s.remaining.take n := by
  obtain ⟨_, _, _, o, rfl, ho⟩ := h
  subst hx
  exact ⟨rfl, rfl, State.encoded_pos hs hb n, ho⟩

end Sys2Proof.Machine
end

section
/-!
PROOFS. The obligations on the steps of a session (42_protocol_encoder.md, 43_driver_control.md).
-/

namespace Sys2Proof.Machine

/-- Settles O44: a step short of an abort goes the way of an ENCODE, which splits what is lacking in two. -/
theorem everyStepConservesTheFrame : Obligations.EveryStepConservesTheFrame :=
  fun _ _ hs hb ha h => (step_advances hs hb ha h).conserves hs hb

/-- Settles O45: the edges are the rows of R127's table at the space of the step. -/
theorem sessionEdges : Obligations.SessionEdges := by
  intro s t hs hb ha h
  have ⟨_, hsession, _⟩ := hs
  have ⟨hlt, _⟩ := hsession
  have hadv := step_advances hs hb ha h
  have hpos := s.pos_lt_iff.2 hlt
  refine ⟨fun hp hn => ?_, fun hp hn => ?_, fun hp hn => ?_, fun hp hn => ?_, fun hp hn => ?_⟩
  · have hlen := State.length_remaining_data hb hp hlt
    have hout := hadv.point hs hb (State.encodePoint_yield hp (by omega))
    rwa [State.remaining_data hb hp] at hout
  · have hlen := State.length_remaining_data hb hp hlt
    have hlast : s.spaceNext + 1 = s.remaining.length := by omega
    obtain ⟨hphase, hbusy, hplace, hout⟩ := hadv.point hs hb (State.encodePoint_toReset hlast)
    refine ⟨hphase, hbusy, hplace, ?_⟩
    rw [hout, List.append_assoc, ← State.remaining_drop_last hsession hb hlast, List.take_append_drop,
      State.remaining_data hb hp]
  · have hlen := State.length_remaining_data hb hp hlt
    have hall : s.remaining.length ≤ s.spaceNext := by omega
    obtain ⟨hphase, hbusy, hplace, hout⟩ := hadv.point hs hb (State.encodePoint_complete hall)
    rw [List.take_of_length_le hall] at hout
    refine ⟨hphase, hbusy, hplace, by rw [hout, State.remaining_data hb hp], ?_⟩
    rw [hout, ← State.dataWords_append_reset hb hp hlt, ← List.append_assoc, List.getLast?_concat]
  · have hlen := State.length_remaining_reset hb hp
    have hout := hadv.point hs hb (State.encodePoint_toReset (by omega))
    rwa [hn, List.take_zero, List.append_nil] at hout
  · have hlen := State.length_remaining_reset hb hp
    have hout := hadv.point hs hb (State.encodePoint_complete (by omega))
    rwa [List.take_of_length_le (by omega), State.remaining_reset hb hp] at hout

end Sys2Proof.Machine
end

section
/-!
SUPPORT. A session served by a sequence of ENCODE commands, whatever their spaces (42_protocol_encoder.md R131, R132,
60_exceptions.md R173, R174).
-/

namespace Sys2Proof.Machine

variable {s t u : State}

/-! ### What is lacking determines the session -/

/-- BUSY is 1 exactly while a symbol is lacking. -/
theorem State.busy_eq (hs : s.Inv) : s.busy = decide (0 < s.remaining.length) := by
  obtain ⟨-, ⟨hlt, -⟩, -⟩ := hs
  cases hb : s.busy with
  | false => rw [State.remaining_idle hb]; rfl
  | true => exact (decide_eq_true (State.length_remaining_bounds hb hlt).1).symm

/-- With BUSY = 0 the session is in its initial state (R28 item 3). -/
theorem State.place_of_idle (hs : s.Inv) (hb : s.busy = false) : s.phase = .data ∧ s.pos = 0 := by
  obtain ⟨-, ⟨-, -, hidle⟩, -⟩ := hs
  obtain ⟨hphase, hbyte, hbit⟩ := hidle hb
  exact ⟨hphase, by rw [State.pos, hbyte, hbit]; rfl⟩

/-- BYTE_IDX and BIT_IDX are the quotient and the rest of the position by 8 (R26). -/
theorem State.place_of_pos_eq (h : s.pos = t.pos) : s.byteIdx = t.byteIdx ∧ s.bitIdx = t.bitIdx := by
  have hs := s.bitIdx.isLt
  have ht := t.bitIdx.isLt
  unfold State.pos at h
  exact ⟨BitVec.eq_of_toNat_eq (by omega), BitVec.eq_of_toNat_eq (by omega)⟩

/-- In one buffer, two sessions that lack equally many symbols are at the same point. -/
theorem State.session_of_length_remaining (hs : s.Inv) (ht : t.Inv) (hcfg : s.cfg = t.cfg)
    (hlen : s.remaining.length = t.remaining.length) :
    s.phase = t.phase ∧ s.byteIdx = t.byteIdx ∧ s.bitIdx = t.bitIdx ∧ s.busy = t.busy := by
  have hbusy : s.busy = t.busy := by rw [State.busy_eq hs, State.busy_eq ht, hlen]
  have ⟨_, ⟨hslt, hsplace, hsidle⟩, _⟩ := hs
  have ⟨_, ⟨htlt, htplace, htidle⟩, _⟩ := ht
  cases hb : t.busy with
  | false =>
    obtain ⟨hsphase, hsbyte, hsbit⟩ := hsidle (hbusy.trans hb)
    obtain ⟨htphase, htbyte, htbit⟩ := htidle hb
    exact ⟨hsphase.trans htphase.symm, hsbyte.trans htbyte.symm, hsbit.trans htbit.symm, hbusy.trans hb⟩
  | true =>
    have hspos := s.pos_lt_iff.2 hslt
    have htpos := t.pos_lt_iff.2 htlt
    rw [hcfg] at hspos
    rw [State.length_remaining (hbusy.trans hb) hslt, State.length_remaining hb htlt, hcfg] at hlen
    cases hsp : s.phase <;> cases htp : t.phase
    case data.data =>
      have hpos : s.pos = t.pos := by simp only [hsp, htp, if_true] at hlen; omega
      obtain ⟨hbyte, hbit⟩ := State.place_of_pos_eq hpos
      exact ⟨rfl, hbyte, hbit, hbusy.trans hb⟩
    case reset.reset =>
      obtain ⟨hsbyte, hsbit⟩ := hsplace hsp
      obtain ⟨htbyte, htbit⟩ := htplace htp
      exact ⟨rfl, hsbyte.trans htbyte.symm, hsbit.trans htbit.symm, hbusy.trans hb⟩
    -- In phase Data a data symbol is lacking beside RESET_SYM.
    all_goals
      simp [hsp, htp] at hlen
      omega

/-! ### A session served -/

/-- From `s` to `t` the Pipeline has offered space for `n` symbols in all: the symbols lacking have come as far as that
goes, and nothing but the session and the output has changed. -/
structure State.Served (s t : State) (n : Nat) : Prop where
  inv : t.Inv
  unchanged : t = { s with
    phase := t.phase, byteIdx := t.byteIdx, bitIdx := t.bitIdx, busy := t.busy, out := t.out }
  symbols : symbolsOf t.out = symbolsOf s.out ++ s.remaining.take n
  remaining : t.remaining = s.remaining.drop n

namespace State.Served

variable {m n : Nat}

theorem cfg (h : s.Served t n) : t.cfg = s.cfg := (congrArg State.cfg h.unchanged :)
theorem pix (h : s.Served t n) : t.pix = s.pix := (congrArg State.pix h.unchanged :)
theorem brt (h : s.Served t n) : t.brt = s.brt := (congrArg State.brt h.unchanged :)
theorem hostPort (h : s.Served t n) : t.hostPort = s.hostPort := (congrArg State.hostPort h.unchanged :)

theorem refl (hs : s.Inv) : s.Served s 0 := ⟨hs, rfl, by simp, by simp⟩

/-- One service continues another (R174). -/
theorem trans (hst : s.Served t m) (htu : t.Served u n) : s.Served u (m + n) where
  inv := htu.inv
  unchanged := by
    rw [htu.unchanged, hst.unchanged]
  symbols := by rw [htu.symbols, hst.symbols, hst.remaining, List.append_assoc, List.take_add]
  remaining := by rw [htu.remaining, hst.remaining, List.drop_drop]

theorem length_remaining (h : s.Served t n) : t.remaining.length = s.remaining.length - n := by
  rw [h.remaining, List.length_drop]

/-- The session goes on until space for all that was lacking has been offered. -/
theorem busy (h : s.Served t n) : t.busy = decide (n < s.remaining.length) := by
  rw [State.busy_eq h.inv, h.length_remaining]
  exact decide_eq_decide.2 Nat.sub_pos_iff_lt

/-- Beyond what was lacking, more space makes no difference. -/
theorem complete (h : s.Served t n) (hn : s.remaining.length ≤ n) : s.Served t s.remaining.length where
  inv := h.inv
  unchanged := h.unchanged
  symbols := by rw [h.symbols, List.take_of_length_le hn, List.take_of_length_le le_rfl]
  remaining := by rw [h.remaining, List.drop_of_length_le hn, List.drop_of_length_le le_rfl]

/-- The space offered in all fixes the block, and not how it was cut. -/
theorem unique (ht : s.Served t n) (hu : s.Served u n) : { t with out := [] } = { u with out := [] } := by
  have hlen : t.remaining.length = u.remaining.length := by rw [ht.length_remaining, hu.length_remaining]
  obtain ⟨hphase, hbyte, hbit, hbusy⟩ :=
    State.session_of_length_remaining ht.inv hu.inv (ht.cfg.trans hu.cfg.symm) hlen
  rw [ht.unchanged, hu.unchanged, hphase, hbyte, hbit, hbusy]

end State.Served

/-! ### ENCODE serves the session -/

/-- The response of an ENCODE as a number, by what is lacking and the space: idle, COMPLETE or FULL (R125, R127). -/
def answerNum (lack space : Nat) : Nat :=
  if lack = 0 then 0 else if lack ≤ space then 2 ^ 17 + lack else 2 ^ 16 + space

theorem State.encodeRsp_eq_answerNum (space : Half) (h : 1 ≤ s.remaining.length) :
    (s.encodeRsp space.toNat).pack.toNat = answerNum s.remaining.length space.toNat := by
  rw [State.encodeRsp_toNat, answerNum, if_neg (show s.remaining.length ≠ 0 by omega)]
  by_cases hall : s.remaining.length ≤ space.toNat
  · rw [if_pos hall, if_pos hall, Nat.min_eq_right hall, Nat.add_comm]
  · rw [if_neg hall, if_neg hall, Nat.min_eq_left (Nat.le_of_not_le hall), Nat.add_comm]

/-- The responses of the pipeline port, as numbers. -/
def State.pipeAnswers (s : State) : List Nat := (responsesOf .pipeline s.out).map BitVec.toNat

theorem exec_encode_serves (space : Half) (hs : s.Inv) :
    ∃ t, exec (.encode space) s = .next t ∧ s.Served t space.toNat ∧
      t.pipeAnswers = s.pipeAnswers ++ [answerNum s.remaining.length space.toNat] := by
  cases hb : s.busy with
  | false =>
    have hrem := State.remaining_idle hb
    refine ⟨_, exec_encode_idle space hb, ⟨hs, rfl, by simp [hrem], ?_⟩, by simp [State.pipeAnswers, hrem, answerNum]⟩
    rw [hrem, List.drop_nil]
    exact State.remaining_idle hb
  | true =>
    have ⟨_, ⟨hlt, _⟩, _⟩ := hs
    have hrsp := State.encodeRsp_eq_answerNum (s := s) space (State.length_remaining_bounds hb hlt).1
    refine ⟨_, exec_encode_eq space hs hb, ⟨State.encoded_inv hs hb _, rfl, by simp [State.encoded],
      State.remaining_encoded hs hb _⟩, ?_⟩
    simp [State.pipeAnswers, State.encoded, hrsp]

/-! ### A sequence of ENCODE commands (R131) -/

/-- The space a sequence of ENCODE commands offers in all. -/
def totalSpace (spaces : List Half) : Nat := (spaces.map BitVec.toNat).sum

/-- The responses of a sequence of ENCODE commands, by what is lacking before the first. -/
def answers : Nat → List Half → List Nat
  | _, [] => []
  | lack, space :: spaces => answerNum lack space.toNat :: answers (lack - space.toNat) spaces

theorem answers_append (lack : Nat) (xs ys : List Half) :
    answers lack (xs ++ ys) = answers lack xs ++ answers (lack - totalSpace xs) ys := by
  induction xs generalizing lack with
  | nil => rfl
  | cons x xs ih =>
    simp only [List.cons_append, answers, ih, totalSpace, List.map_cons, List.sum_cons, Nat.sub_sub]

/-- As long as the sum of the spaces is short, every response is FULL with its space. -/
theorem answers_short {lack : Nat} {xs : List Half} (h : totalSpace xs < lack) :
    answers lack xs = xs.map fun x => 2 ^ 16 + x.toNat := by
  induction xs generalizing lack with
  | nil => rfl
  | cons x xs ih =>
    simp only [totalSpace, List.map_cons, List.sum_cons] at h
    have hx : answerNum lack x.toNat = 2 ^ 16 + x.toNat := by
      rw [answerNum, if_neg (by omega), if_neg (by omega)]
    rw [answers, hx, ih (by unfold totalSpace; omega), List.map_cons]

/-- With nothing lacking every response is the idle one. -/
theorem answers_idle (xs : List Half) : answers 0 xs = xs.map fun _ => 0 := by
  induction xs with
  | nil => rfl
  | cons x xs ih => rw [answers, Nat.zero_sub, ih]; rfl

/-- The sequence that reaches the sum: FULL, then one COMPLETE with what was lacking, then idle. -/
theorem answers_complete {lack : Nat} {before after : List Half} {last : Half} (hshort : totalSpace before < lack)
    (hall : lack ≤ totalSpace before + last.toNat) :
    answers lack (before ++ last :: after) =
      before.map (fun x => 2 ^ 16 + x.toNat) ++ [2 ^ 17 + (lack - totalSpace before)] ++ after.map fun _ => 0 := by
  have hlast : answerNum (lack - totalSpace before) last.toNat = 2 ^ 17 + (lack - totalSpace before) := by
    rw [answerNum, if_neg (by omega), if_pos (by omega)]
  have hnone : lack - totalSpace before - last.toNat = 0 := by omega
  rw [answers_append, answers_short hshort, answers, hlast, hnone, answers_idle, List.append_assoc]
  rfl

/-- A sequence of ENCODE commands serves the session with the sum of its spaces. -/
theorem encodeAll_serves (spaces : List Half) (hs : s.Inv) :
    ∃ t, encodeAll spaces s = .next t ∧ s.Served t (totalSpace spaces) ∧
      t.pipeAnswers = s.pipeAnswers ++ answers s.remaining.length spaces := by
  induction spaces generalizing s with
  | nil => exact ⟨s, rfl, .refl hs, (List.append_nil _).symm⟩
  | cons space spaces ih =>
    obtain ⟨t, ht, hst, hanst⟩ := exec_encode_serves space hs
    obtain ⟨u, hu, htu, hansu⟩ := ih hst.inv
    refine ⟨u, ?_, hst.trans htu, ?_⟩
    · rw [encodeAll, ht, andThen_next, hu]
    · rw [hansu, hanst, hst.length_remaining, List.append_assoc]
      rfl

/-! ### ENCODE after FLUSH -/

theorem State.flushed_inv (hs : s.Inv) : s.flushed.Inv := exec_inv hs (exec_flush_eq s)

theorem State.length_remaining_flushed (s : State) : s.flushed.remaining.length = s.cfg.frameSyms := by
  rw [State.remaining_flushed, frame_length, State.bytes_length, Config.frameSyms]

theorem State.symbolsOf_flushed (s : State) : symbolsOf s.flushed.out = symbolsOf s.out := by
  simp [State.flushed]

theorem State.pipeAnswers_flushed (s : State) : s.flushed.pipeAnswers = s.pipeAnswers := by
  simp [State.pipeAnswers, State.flushed]

end Sys2Proof.Machine
end

section
/-!
PROOFS. The obligations on sequences of ENCODE commands (42_protocol_encoder.md, 60_exceptions.md).
-/

namespace Sys2Proof.Machine

/-- Settles O41: a symbol is lacking, so space for one emits one; without space the place does not move. -/
theorem encodeProgress : Obligations.EncodeProgress := by
  intro space s hs hb
  have ⟨_, ⟨hlt, _⟩, _⟩ := hs
  refine ⟨fun hspace => ?_, fun hspace => ?_⟩
  · have hlen := State.length_remaining_bounds hb hlt
    have hpos : space.toNat ≠ 0 := fun h0 => hspace (BitVec.eq_of_toNat_eq h0)
    obtain ⟨t, ht, hserved, -⟩ := exec_encode_serves space hs
    refine ⟨t, ht, ?_⟩
    rw [hserved.symbols, List.length_append, List.length_take]
    omega
  · subst hspace
    exact (exec_encode_eq 0 hs hb).trans (congrArg _ (State.encoded_zero hs hb))

/-- Settles O42: both ways offer `a + b` symbols of space, which fixes the stream and the block. -/
theorem encodeResumesWhereItYielded : Obligations.EncodeResumesWhereItYielded := by
  intro a b s hs hb hsum
  have hab : (a + b).toNat = a.toNat + b.toNat := by
    rw [BitVec.toNat_add]
    omega
  obtain ⟨t, ht, hst, -⟩ := exec_encode_serves a hs
  obtain ⟨u, hu, htu, -⟩ := exec_encode_serves b hst.inv
  obtain ⟨v, hv, hsv, -⟩ := exec_encode_serves (a + b) hs
  have hsu := hst.trans htu
  rw [hab] at hsv
  exact ⟨t, u, v, ht, hu, hv, hsu.symbols.trans hsv.symbols.symm, hsu.unique hsv⟩

/-- Settles O43: after FLUSH the whole frame is lacking, and the commands serve it with the sum of their spaces. -/
theorem frameLaw : Obligations.FrameLaw := by
  intro spaces s hs hb
  obtain ⟨t, ht, hserved, hans⟩ := encodeAll_serves spaces (State.flushed_inv hs)
  have hsym := hserved.symbols
  have hbusy := hserved.busy
  rw [State.symbolsOf_flushed, State.remaining_flushed] at hsym
  rw [State.pipeAnswers_flushed, State.length_remaining_flushed] at hans
  rw [State.length_remaining_flushed] at hbusy
  refine ⟨s.flushed, exec_flush_eq s, fun hshort => ?_, fun before after last hspaces hshort hall => ?_⟩
  · rw [answers_short hshort] at hans
    exact ⟨t, ht, hbusy.trans (decide_eq_true hshort), hserved.pix, hsym, hans⟩
  · have htotal : s.cfg.frameSyms ≤ totalSpace spaces := by
      simp only [hspaces, totalSpace, List.map_append, List.map_cons, List.sum_append, List.sum_cons]
      omega
    have hidle : t.busy = false := hbusy.trans (decide_eq_false (Nat.not_lt.2 htotal))
    obtain ⟨hphase, hpos⟩ := State.place_of_idle hserved.inv hidle
    have hlen : (frame s.cfg.k s.bytes).length ≤ totalSpace spaces := by
      rwa [← State.remaining_flushed, State.length_remaining_flushed]
    rw [List.take_of_length_le hlen] at hsym
    rw [hspaces, answers_complete hshort hall, ← List.append_assoc, ← List.append_assoc] at hans
    exact ⟨t, ht, hidle, hphase, hpos, hserved.pix, hsym, hans⟩

/-- Settles O46: after FLUSH the ENCODE serves the frame; before it there is no session, and FLUSH emits nothing. -/
theorem orderOfFlushAndEncodeShows : Obligations.OrderOfFlushAndEncodeShows := by
  intro space s hs hb
  refine ⟨?_, _, _, exec_encode_idle space hb, exec_flush_eq _, by simp [State.flushed], rfl⟩
  obtain ⟨u, hu, hserved, -⟩ := exec_encode_serves space (State.flushed_inv hs)
  have hsym := hserved.symbols
  rw [State.symbolsOf_flushed, State.remaining_flushed] at hsym
  exact ⟨_, u, exec_flush_eq s, hu, hsym⟩

end Sys2Proof.Machine
end

section
/-!
SUPPORT. ENCODE repeated until COMPLETE, and the frame as a list of data symbols (30_encoding.md R73, R77,
42_protocol_encoder.md R130).
-/

namespace Sys2Proof.Machine

variable {s : State}

/-! ### ENCODE until COMPLETE (R77) -/

/-- The response of an ENCODE in a session says whether it has completed the frame (R127). -/
theorem State.encoded_completed (s : State) (n : Nat) :
    (s.encoded n).completed = decide (s.remaining.length ≤ n) := by
  have hrsp : (s.encoded n).rsp .pipeline = some (s.encodeRsp n).pack := by
    simp [State.rsp, State.encoded]
  rw [State.completed, hrsp, ← State.encodeRsp_complete]
  simp

theorem encodeUntilComplete_step (n : Nat) (space : Half) (hs : s.Inv) (hb : s.busy = true) :
    encodeUntilComplete (n + 1) space s =
      if s.remaining.length ≤ space.toNat then .next (s.encoded space.toNat)
      else encodeUntilComplete n space (s.encoded space.toNat) := by
  rw [encodeUntilComplete, exec_encode_eq space hs hb, andThen_next, State.encoded_completed]
  simp only [decide_eq_true_iff]

theorem State.encoded_served (hs : s.Inv) (hb : s.busy = true) (space : Half) :
    s.Served (s.encoded space.toNat) space.toNat := by
  obtain ⟨t, ht, hserved, -⟩ := exec_encode_serves space hs
  cases (exec_encode_eq space hs hb).symm.trans ht
  exact hserved

/-- With some space every call emits a symbol, so as many calls as symbols are lacking complete the frame (R132). -/
theorem encodeUntilComplete_completes {n : Nat} {space : Half} (hspace : 1 ≤ space.toNat) (hs : s.Inv)
    (hb : s.busy = true) (hn : s.remaining.length ≤ n) :
    ∃ t, encodeUntilComplete n space s = .next t ∧ s.Served t s.remaining.length ∧ t.completed = true := by
  induction n generalizing s with
  | zero =>
    have hpos := (State.busy_eq hs).symm.trans hb
    rw [decide_eq_true_iff] at hpos
    omega
  | succ n ih =>
    have hserved := State.encoded_served hs hb space
    rw [encodeUntilComplete_step n space hs hb]
    split_ifs with hall
    · exact ⟨_, rfl, hserved.complete hall, (State.encoded_completed s _).trans (decide_eq_true hall)⟩
    · have hlen := hserved.length_remaining
      have hbusy := hserved.busy.trans (decide_eq_true (Nat.lt_of_not_le hall))
      obtain ⟨t, ht, hrest, hdone⟩ := ih hserved.inv hbusy (by omega)
      have hsum : space.toNat + (s.encoded space.toNat).remaining.length = s.remaining.length := by omega
      exact ⟨t, ht, hsum ▸ hserved.trans hrest, hdone⟩

/-- Without space no number of calls emits a symbol or ends the session (R132). -/
theorem encodeUntilComplete_zero (n : Nat) (hs : s.Inv) (hb : s.busy = true) :
    ∃ t, encodeUntilComplete n 0 s = .next t ∧ s.Served t 0 := by
  induction n generalizing s with
  | zero => exact ⟨s, rfl, .refl hs⟩
  | succ n ih =>
    have hserved : s.Served (s.encoded 0) 0 := State.encoded_served hs hb 0
    have hlack : 0 < s.remaining.length := of_decide_eq_true ((State.busy_eq hs).symm.trans hb)
    obtain ⟨t, ht, hrest⟩ := ih hserved.inv (hserved.busy.trans (decide_eq_true hlack))
    refine ⟨t, ?_, hserved.trans hrest⟩
    rw [encodeUntilComplete_step n 0 hs hb]
    exact (if_neg (Nat.not_le.2 hlack)).trans ht

/-! ### FLUSHW (R77, R153) -/

theorem encode_flush : encode .flush = 0x4000000000000000 := by decide

/-- FLUSHW whose FLUSH the host port takes emits one frame, and the block is idle again. -/
theorem flushwOffered_emits {limit : Nat} {space : Half} {q : List (Option CmdWord)} (hs : s.Inv)
    (hb : s.busy = false) (hp : s.hostPort = some (encode .flush) :: q) (hspace : 1 ≤ space.toNat)
    (hlimit : s.cfg.frameSyms ≤ limit) :
    ∃ t, flushwOffered limit space s = .next t ∧ t.busy = false ∧ t.completed = true ∧ t.hostPort = q ∧
      t.pix = s.pix ∧ t.brt = s.brt ∧ symbolsOf t.out = symbolsOf s.out ++ frame s.cfg.k s.bytes := by
  have ⟨hwf, _⟩ := hs
  have hinv : ({ s with hostPort := q } : State).Inv := hs
  have hlen := State.length_remaining_flushed { s with hostPort := q }
  obtain ⟨t, ht, hserved, hdone⟩ :=
    encodeUntilComplete_completes hspace (State.flushed_inv hinv) rfl (hlen.trans_le hlimit)
  have hsym := hserved.symbols
  rw [State.symbolsOf_flushed, List.take_of_length_le le_rfl, State.remaining_flushed] at hsym
  refine ⟨t, ?_, by simp [hserved.busy], hdone, hserved.hostPort, hserved.pix, hserved.brt, hsym⟩
  rw [flushwOffered_accepted limit space hwf hb hp, exec_flush_eq, andThen_next, ht]

/-- FLUSHW with space 0 leaves its session with nothing emitted. -/
theorem flushwOffered_zero (limit : Nat) {q : List (Option CmdWord)} (hs : s.Inv) (hb : s.busy = false)
    (hp : s.hostPort = some (encode .flush) :: q) :
    ∃ t, flushwOffered limit 0 s = .next t ∧ t.busy = true ∧ symbolsOf t.out = symbolsOf s.out := by
  have ⟨hwf, _⟩ := hs
  have hinv : ({ s with hostPort := q } : State).Inv := hs
  have hlen := State.length_remaining_flushed { s with hostPort := q }
  obtain ⟨t, ht, hserved⟩ := encodeUntilComplete_zero limit (State.flushed_inv hinv) rfl
  have hsym := hserved.symbols
  rw [State.symbolsOf_flushed, List.take_zero, List.append_nil] at hsym
  refine ⟨t, ?_, hserved.busy.trans (decide_eq_true ?_), hsym⟩
  · rw [flushwOffered_accepted limit 0 hwf hb hp, exec_flush_eq, andThen_next, ht]
  · rw [hlen]
    exact Nat.succ_pos _

/-! ### A frame by its bits (R130) -/

/-- A frame is the data symbols of its bytes' bits, and RESET_SYM. -/
theorem frame_eq_map_bits (k : Nat) (bytes : List Byte) :
    frame k bytes = (bytes.flatMap byteBits).map (fun v => (dataSym k v).pack) ++ [(resetSym k).pack] := by
  rw [frame, List.map_flatMap]
  rfl

theorem length_flatMap_byteBits (bytes : List Byte) : (bytes.flatMap byteBits).length = 8 * bytes.length := by
  simp [List.length_flatMap, Nat.mul_comm]

/-- A dark byte has eight bits 0. -/
theorem flatMap_byteBits_replicate_zero (n : Nat) :
    (List.replicate n (0 : Byte)).flatMap byteBits = List.replicate (8 * n) false := by
  induction n with
  | zero => rfl
  | succ n ih =>
    rw [List.replicate_succ, List.flatMap_cons, ih, Nat.mul_succ, Nat.add_comm, List.replicate_add]
    rfl

/-- The buffer after reset is dark (R33). -/
theorem State.bytes_resetOf (c : Config) : (State.resetOf c).bytes = List.replicate c.len 0 := by
  show (List.range c.len).map (fun _ => 0) = _
  rw [List.map_const', List.length_range]

/-- The frame of a dark buffer (R192). -/
theorem frame_dark (k n : Nat) :
    frame k (List.replicate n 0) = List.replicate (8 * n) (bit0Sym k).pack ++ [(resetSym k).pack] := by
  rw [frame_eq_map_bits, flatMap_byteBits_replicate_zero, List.map_replicate]
  rfl

/-- The bits of a byte in order are the byte. -/
theorem byteBits_injective : Function.Injective byteBits := by
  intro v w h
  refine BitVec.eq_of_getLsbD_eq fun i hi => ?_
  have hget := congrArg (·[7 - i]?) h
  simpa [byteBits, List.getElem?_range (show 7 - i < 8 by omega), show 7 - (7 - i) = i by omega] using hget

/-- The bits of a buffer in order are the buffer. -/
theorem flatMap_byteBits_injective : Function.Injective (List.flatMap byteBits) := by
  intro xs
  induction xs with
  | nil =>
    intro ys h
    cases ys with
    | nil => rfl
    | cons y ys => exact nomatch h
  | cons x xs ih =>
    intro ys h
    cases ys with
    | nil => exact nomatch h
    | cons y ys =>
      obtain ⟨hxy, hrest⟩ := List.append_inj h rfl
      rw [byteBits_injective hxy, ih hrest]

theorem ticksOf_append (xs ys : List (Bool × Nat)) : ticksOf (xs ++ ys) = ticksOf xs + ticksOf ys := by
  simp [ticksOf]

section TickRate

variable {k : Nat} (hk : k ≤ 131)
include hk

/-- A data symbol lasts `12 K` ticks, a reset symbol `500 K` (R69 to R71). -/
theorem dataSym_ticks (v : Bool) : ticksOf (dataSym k v).wave = 12 * k := by
  cases v
  · rw [dataSym, if_neg (by decide), bit0Sym_wave hk]
    simp [ticksOf]
    omega
  · rw [dataSym, if_pos rfl, bit1Sym_wave hk]
    simp [ticksOf]
    omega

theorem resetSym_ticks : ticksOf (resetSym k).wave = 500 * k := by
  rw [resetSym_wave hk]
  simp [ticksOf]
  omega

theorem dataSyms_ticks (bits : List Bool) :
    ticksOf (waveOf (bits.map fun v => (dataSym k v).pack)) = bits.length * (12 * k) := by
  induction bits with
  | nil => simp [waveOf, ticksOf]
  | cons v bits ih =>
    rw [List.map_cons, waveOf, List.flatMap_cons, ticksOf_append, Symbol.unpack_pack, dataSym_ticks hk, ← waveOf, ih,
      List.length_cons]
    ring

theorem frame_ticks (bytes : List Byte) :
    ticksOf (waveOf (frame k bytes)) = 8 * bytes.length * (12 * k) + 500 * k := by
  rw [frame_eq_map_bits, waveOf, List.flatMap_append, ticksOf_append, ← waveOf, dataSyms_ticks hk,
    length_flatMap_byteBits, List.flatMap_singleton, Symbol.unpack_pack, resetSym_ticks hk]

/-- The threshold `6 K` lies between the high times of the two data symbols (R73). -/
theorem readSym_dataSym (hk1 : 1 ≤ k) (v : Bool) : readSym k (dataSym k v).pack = some (.bit v) := by
  cases v
  · have hdur : (BitVec.ofNat 15 (t0h k)).toNat = 3 * k := dur_toNat (by unfold t0h; omega)
    simp [readSym, dataSym, bit0Sym, hdur]
    omega
  · have hdur : (BitVec.ofNat 15 (t1h k)).toNat = 9 * k := dur_toNat (by unfold t1h; omega)
    simp [readSym, dataSym, bit1Sym, hdur]
    omega

/-- Its two halves together are the latch time (R71, R73). -/
theorem readSym_resetSym : readSym k (resetSym k).pack = some (.latch (500 * k)) := by
  have hdur : (BitVec.ofNat 15 (trstHalf k)).toNat = 250 * k := dur_toNat (by unfold trstHalf; omega)
  simp [readSym, resetSym, hdur]
  omega

/-- A frame read symbol by symbol is its bytes' bits, and the latch (R133). -/
theorem frame_map_readSym (hk1 : 1 ≤ k) (bytes : List Byte) :
    (frame k bytes).map (readSym k) =
      (bytes.flatMap byteBits).map (fun v => some (.bit v)) ++ [some (.latch (500 * k))] := by
  simp [frame_eq_map_bits, readSym_dataSym hk hk1, readSym_resetSym hk]

end TickRate

end Sys2Proof.Machine
end

section
/-!
PROOFS. The obligations on FLUSHW and on frames (30_encoding.md, 42_protocol_encoder.md, 70_reset_and_hazards.md).
-/

namespace Sys2Proof.Machine

/-- Settles O47: FLUSHW is FLUSH and then ENCODE until COMPLETE where the host port takes the FLUSH, and a held word
where it does not. -/
theorem flushwEmitsOneFrame : Obligations.FlushwEmitsOneFrame := by
  refine ⟨fun limit space s hs hb hspace hlimit => ?_, fun limit s hs hb => ?_, fun limit space s hs hb => ?_,
    fun limit space s q hs hb hp hspace hlimit => ?_⟩
  · have hoffer : (s.offer .host (encode .flush)).Inv := hs
    obtain ⟨t, ht, hbusy, hdone, -, hpix, hbrt, hsym⟩ := flushwOffered_emits hoffer hb rfl hspace hlimit
    exact ⟨t, ht, hbusy, hdone, hpix, hbrt, hsym⟩
  · have hoffer : (s.offer .host (encode .flush)).Inv := hs
    exact flushwOffered_zero limit hoffer hb rfl
  · have ⟨hwf, _⟩ := hs
    rw [← encode_flush]
    exact flushwOffered_held (s := s.offer .host (encode .flush)) limit space hwf hb rfl
  · rw [← encode_flush] at hp
    obtain ⟨t, ht, hbusy, -, hport, hpix, -, hsym⟩ := flushwOffered_emits hs hb hp hspace hlimit
    exact ⟨t, ht, hbusy, hport, hpix, hsym⟩

/-- Settles O48: FLUSHW from the state after reset, whose buffer is dark. -/
theorem firstFlushIsDark : Obligations.FirstFlushIsDark := by
  intro c limit space hc hspace hlimit
  have hoffer : ((State.resetOf c).offer .host (encode .flush)).Inv := State.resetOf_inv hc
  obtain ⟨t, ht, hbusy, -, -, -, -, hsym⟩ := flushwOffered_emits hoffer rfl rfl hspace hlimit
  refine ⟨t, ht, hbusy, hsym.trans ?_⟩
  calc symbolsOf (State.resetOf c).out ++ frame c.k (State.resetOf c).bytes
      = frame c.k (List.replicate c.len 0) := by rw [State.bytes_resetOf]; rfl
    _ = List.replicate (8 * c.len) (bit0Sym c.k).pack ++ [(resetSym c.k).pack] := frame_dark _ _

/-- Settles O37: the frame's symbols by position, and its ticks from those of its symbols. -/
theorem frameShapeAndDuration : Obligations.FrameShapeAndDuration := by
  intro s hwf
  obtain ⟨-, -, -, -, hk⟩ := hwf
  refine ⟨by rw [frame_length, State.bytes_length, Config.frameSyms], ?_, fun t ht => frame_get?_data s ht, ?_, ?_⟩
  · rw [Config.frameSyms, Config.len]
    omega
  · have hlast := congrArg (·[0]?) (frame_drop_data s)
    simpa using hlast
  · rw [frame_ticks hk, State.bytes_length]

/-- Settles O38: each symbol reads as what it was made from, so a frame gives its bits back, and the bits the bytes. -/
theorem frameDecodesToItsBits : Obligations.FrameDecodesToItsBits := by
  intro k bytes hk1 hk
  refine ⟨frame_map_readSym hk hk1 bytes, fun other h => flatMap_byteBits_injective ?_⟩
  have hread := congrArg (List.map (readSym k)) h
  rw [frame_map_readSym hk hk1, frame_map_readSym hk hk1] at hread
  refine (List.map_injective_iff.2 ?_) (List.append_cancel_right hread)
  intro v w hvw
  cases hvw
  rfl

end Sys2Proof.Machine
end

section
/-!
SUPPORT. The scaler's order properties, and SET and FILL at other indices, in the other fill mode, and repeated
(40_brightness_scaler.md R96, 41_pixel_buffer.md R101 to R107).
-/

namespace Sys2Proof.Machine

/-! ### The scaler (R96) -/

theorem scale_comm (c b : Byte) : scale c b = scale b c :=
  BitVec.eq_of_toNat_eq (by rw [scale_toNat, scale_toNat, Nat.mul_comm, if_congr and_comm rfl rfl])

theorem scale_toNat_of_ne_zero {c b : Byte} (hc : c ≠ 0) (hb : b ≠ 0) :
    (scale c b).toNat = c.toNat * b.toNat / 256 + 1 := by
  rw [scale_toNat, if_pos ⟨hc, hb⟩]

theorem byte_toNat_pos {c : Byte} (hc : c ≠ 0) : 0 < c.toNat :=
  Nat.pos_of_ne_zero fun h => hc (BitVec.eq_of_toNat_eq h)

/-- `c × 255 / 256` is `c − 1` for a non-zero byte, and the increment makes up for it. -/
theorem scale_full (c : Byte) : scale c 255 = c := by
  by_cases hc : c = 0
  · rw [hc, scale_zero_left]
  · have hpos := byte_toNat_pos hc
    have hlt := c.isLt
    have h255 : (255 : Byte).toNat = 255 := rfl
    refine BitVec.eq_of_toNat_eq ?_
    rw [scale_toNat_of_ne_zero hc (by decide), h255]
    omega

/-- Never brighter than the channel: the product is at most 255 times it. -/
theorem scale_le_left (c b : Byte) : (scale c b).toNat ≤ c.toNat := by
  by_cases hc : c = 0
  · rw [hc, scale_zero_left]
  by_cases hb : b = 0
  · rw [hb, scale_zero_right]
    exact Nat.zero_le _
  have hpos := byte_toNat_pos hc
  have hprod : c.toNat * b.toNat ≤ c.toNat * 255 := Nat.mul_le_mul_left _ (Nat.le_of_lt_succ b.isLt)
  rw [scale_toNat_of_ne_zero hc hb]
  omega

theorem scale_mono_left {c d : Byte} (b : Byte) (h : c.toNat ≤ d.toNat) :
    (scale c b).toNat ≤ (scale d b).toNat := by
  by_cases hc : c = 0
  · rw [hc, scale_zero_left]
    exact Nat.zero_le _
  by_cases hb : b = 0
  · rw [hb, scale_zero_right, scale_zero_right]
  have hd : d ≠ 0 := by
    rintro rfl
    exact hc (BitVec.eq_of_toNat_eq (Nat.le_zero.1 h))
  have hdiv : c.toNat * b.toNat / 256 ≤ d.toNat * b.toNat / 256 :=
    Nat.div_le_div_right (Nat.mul_le_mul_right _ h)
  rw [scale_toNat_of_ne_zero hc hb, scale_toNat_of_ne_zero hd hb]
  omega

/-! ### Indices (R101, R104) -/

/-- An index on the strip is its own LED. -/
theorem clampIdx_of_lt {c : Config} {idx : Half} (h : idx.toNat < c.numLeds) : clampIdx c idx = idx.toNat :=
  Nat.min_eq_left (by omega)

/-- An index beyond it is the last LED, whose number fits the index field (R6). -/
theorem clampIdx_of_ge {c : Config} (hc : c.WellFormed) {idx : Half} (h : c.numLeds ≤ idx.toNat) :
    clampIdx c idx = clampIdx c (BitVec.ofNat 16 (c.numLeds - 1)) := by
  obtain ⟨h1, h2, -⟩ := hc
  have hlast : (BitVec.ofNat 16 (c.numLeds - 1)).toNat = c.numLeds - 1 := by
    rw [BitVec.toNat_ofNat]
    omega
  rw [clampIdx_of_lt (idx := BitVec.ofNat 16 (c.numLeds - 1)) (by omega), hlast]
  exact Nat.min_eq_right (by omega)

/-- FILL reads its index only through the clamp (decision D14). -/
theorem fillTargets_congr {c : Config} {idx idx' : Half} (h : clampIdx c idx = clampIdx c idx') (cnt : Half) :
    fillTargets c idx cnt = fillTargets c idx' cnt := by
  simp [fillTargets, fillCount, fillEnd, h]

/-! ### Painting twice, and painting other LEDs -/

namespace Memory.Painted

variable {c : Colour} {brt : Byte} {leds leds' : List Nat} {m n n' : Memory}

/-- The same LEDs painted again in the same colour are painted as before. -/
theorem again (h : Memory.Painted c brt leds m n) (h' : Memory.Painted c brt leds n n') :
    Memory.Painted c brt leds m n' := by
  intro a
  rw [h', h]
  split_ifs <;> rfl

/-- Two paintings agree on a byte whose LED is in both lists or in neither. -/
theorem get_congr (h : Memory.Painted c brt leds m n) (h' : Memory.Painted c brt leds' m n') {a : Nat}
    (ha : a / 3 ∈ leds ↔ a / 3 ∈ leds') : Memory.get n a = Memory.get n' a := by
  rw [h, h', if_congr ha rfl rfl]

end Memory.Painted

/-- Painting repeated leaves the same buffer. -/
theorem paint_idempotent {s t u : State} {leds : List Nat} {c : Colour} (hb : s.BufferInv)
    (hl : ∀ led ∈ leds, led < s.cfg.numLeds) (ht : paint leds c s = .next t) (hu : paint leds c t = .next u) :
    u.pix = t.pix := by
  obtain ⟨m, hm, hbm, hpm⟩ := paint_spec hb c hl
  cases hm.symm.trans ht
  obtain ⟨n, hn, ⟨hwn, -⟩, hpn⟩ :=
    paint_spec (s := { s with pix := m, out := s.out ++ [.response .host 0x00000000] }) hbm c hl
  cases hn.symm.trans hu
  obtain ⟨hwm, -⟩ := hbm
  exact (hpm.again hpn).unique hpm hwn hwm fun _ => Iff.rfl

/-! ### The two fill modes (R107) -/

/-- The same block with another fill mode, as R107 compares them. -/
def State.withMode (s : State) (m : FillMode) : State := { s with cfg := { s.cfg with fillMode := m } }

/-- The invariants do not mention the fill mode. -/
theorem State.withMode_inv {s : State} (hs : s.Inv) (m : FillMode) : (s.withMode m).Inv := hs

end Sys2Proof.Machine
end

section
/-!
PROOFS. The obligations on the scaler's order and on SET and FILL beside each other (40_brightness_scaler.md,
41_pixel_buffer.md).
-/

namespace Sys2Proof.Machine

/-- Settles O3: identity, bound and monotonicity in one argument, carried to the other by symmetry. -/
theorem scaleIsIdentityAtFullAndMonotone : Obligations.ScaleIsIdentityAtFullAndMonotone := by
  refine ⟨fun c => ⟨scale_full c, (scale_comm 255 c).trans (scale_full c)⟩, fun c b => ⟨scale_comm c b, ?_⟩,
    fun c d b h => ⟨scale_mono_left b h, ?_⟩, fun c b hc hb => ?_⟩
  · exact Nat.le_min.2 ⟨scale_le_left c b, scale_comm c b ▸ scale_le_left b c⟩
  · rw [scale_comm b c, scale_comm b d]
    exact scale_mono_left b h
  · rw [scale_toNat_of_ne_zero hc hb]
    omega

/-- Settles O30: SET and FILL read their index only through the clamp. -/
theorem outOfRangeIndexIsTheLastLed : Obligations.OutOfRangeIndexIsTheLastLed := by
  intro idx cnt r g b s hwf hidx
  have hclamp := clampIdx_of_ge hwf hidx
  refine ⟨?_, ?_⟩
  · rw [exec_set_eq_paint, exec_set_eq_paint, hclamp]
  · rw [exec_fill_eq_paint, exec_fill_eq_paint, fillTargets_congr hclamp]

/-- Settles O31: SET paints the addressed LED, and the scaler is the identity at 255 and zero at 0. -/
theorem setAtFullBrightnessStoresTheColour : Obligations.SetAtFullBrightnessStoresTheColour := by
  rintro idx r g b s hs - hidx
  obtain ⟨m, hm, -, hp⟩ := exec_set_spec hs idx r g b
  have hled := hp.get_led (List.mem_singleton_self _)
  rw [clampIdx_of_lt hidx] at hled
  refine ⟨_, hm, fun hbrt => ?_, fun hbrt => ?_⟩
  · simpa only [hbrt, scale_full] using hled
  · simpa only [hbrt, scale_zero_right] using hled

/-- Settles O34: both modes paint LEDs of `i .. e − 1` only, and agree on which LEDs up to `i` and from `e` on. -/
theorem fillModesDifferOnlyBeyondTheFirstLed : Obligations.FillModesDifferOnlyBeyondTheFirstLed := by
  intro idx cnt r g b s i e hs hi he
  have ⟨⟨hleds, _⟩, _⟩ := hs
  obtain rfl : i = clampIdx s.cfg idx := hi
  obtain rfl : e = fillEnd s.cfg idx cnt := he
  have hcount : 0 < fillEnd s.cfg idx cnt - clampIdx s.cfg idx ↔ cnt ≠ 0 := fillCount_pos_iff hleds idx cnt
  have hlen : s.cfg.len = 3 * s.cfg.numLeds := rfl
  have hend : fillEnd s.cfg idx cnt ≤ s.cfg.numLeds := Nat.min_le_right _ _
  have hsingle : ∀ led, led ∈ fillTargets (s.withMode .single).cfg idx cnt ↔ cnt ≠ 0 ∧ led = clampIdx s.cfg idx :=
    fun _ => mem_fillTargets_single (c := (s.withMode .single).cfg) hleds rfl
  have hrange : ∀ led, led ∈ fillTargets (s.withMode .range).cfg idx cnt ↔
      clampIdx s.cfg idx ≤ led ∧ led < fillEnd s.cfg idx cnt := fun _ => mem_fillTargets_range rfl
  obtain ⟨m, hm, ⟨hwm, -⟩, hpm⟩ := exec_fill_spec (State.withMode_inv hs .single) idx cnt r g b
  obtain ⟨n, hn, ⟨hwn, -⟩, hpn⟩ := exec_fill_spec (State.withMode_inv hs .range) idx cnt r g b
  refine ⟨_, _, hm, hn, fun hone => ?_, fun a ha => ?_, fun a ha => ⟨?_, ?_⟩⟩
  · refine hpm.unique hpn hwm hwn fun led => ?_
    rw [hsingle, hrange, ← hcount]
    omega
  · refine hpm.get_congr hpn ?_
    rw [hsingle, hrange, ← hcount]
    omega
  · refine hpm.get_other ?_
    rw [hsingle, ← hcount]
    omega
  · refine hpn.get_other ?_
    rw [hrange]
    omega

/-- Settles O35: SET and FILL paint LEDs that only the index, the count and the parameters choose. -/
theorem setAndFillAreIdempotent : Obligations.SetAndFillAreIdempotent := by
  intro i s t u hs hi ht hu
  have ⟨⟨hleds, _⟩, _, hbuf⟩ := hs
  have hcfg : t.cfg = s.cfg := exec_cfg ht
  obtain ⟨idx, r, g, b, rfl⟩ | ⟨idx, cnt, r, g, b, rfl⟩ := hi
  · rw [exec_set_eq_paint] at ht hu
    rw [hcfg] at hu
    exact paint_idempotent hbuf (List.forall_mem_singleton.2 (clampIdx_lt hleds idx)) ht hu
  · rw [exec_fill_eq_paint] at ht hu
    rw [hcfg] at hu
    exact paint_idempotent hbuf (fun _ hl => (mem_fillTargets hleds hl).2.2) ht hu

end Sys2Proof.Machine
end
